-- ==== Sys2Proof/Word.lean ====
section
/-! DEFINITION. The two word types of the block (00_scope.md R14: a byte is 8 bits, a half is 16 bits, all unsigned). -/

namespace Sys2Proof

/-- A byte of the stream, of `BUF`, of `OUT`, or an operand byte (R14). -/
abbrev Byte := BitVec 8

/-- A half: a checksum, a header, a table entry, a command word (R14). -/
abbrev Half := BitVec 16

end Sys2Proof
end

