-- ==== Sys2Proof/Syntax.lean ====
section
/-! DEFINITION. The command set SPSF-1 (30_encoding.md R66) and the lines of its assembler (R70, R71). -/

namespace Sys2Proof

/-- The eleven commands of R66, one constructor per row of opcode_table.json. A format `I` command carries
its operand byte; a format `N` command has no operand (R62). -/
inductive Instr where
  /-- `CRCCLR`: start a checksum (R84). -/
  | crcclr
  /-- `CRCUPD imm8`: fold one byte into the running checksum (R85). -/
  | crcupd (imm8 : Byte)
  /-- `CRCRD`: read the running checksum (R86). -/
  | crcrd
  /-- `TBLRD imm8`: read one table entry (R87). -/
  | tblrd (imm8 : Byte)
  /-- `ADDB imm8`: give the parser the next stream byte (R102). -/
  | addb (imm8 : Byte)
  /-- `GETM`: take the completed frame (R104). -/
  | getm
  /-- `PRST`: parser reset (R107). -/
  | prst
  /-- `STAT`: read the parser's progress (R109). -/
  | stat
  /-- `RDB imm8`: read one byte of the taken frame (R130). -/
  | rdb (imm8 : Byte)
  /-- `LEN`: total length of the taken frame (R131). -/
  | len
  /-- `CHK`: verify the taken frame's checksum (R132). -/
  | chk
  deriving DecidableEq, Repr

/-- The two command formats of R62: `I` uses the operand byte, `N` ignores it. -/
inductive Format where
  | I
  | N
  deriving DecidableEq, Repr

/-- The names an assembler line may start with: the eleven mnemonics of R66 and the two
pseudo-commands of R71. -/
inductive AsmName where
  | crcclr | crcupd | crcrd | tblrd | addb | getm | prst | stat | rdb | len | chk
  | crc16 | feed
  deriving DecidableEq, Repr

/-- One assembler line: a name and the operands written after it (R70, R71). -/
structure AsmLine where
  name : AsmName
  operands : List Nat
  deriving DecidableEq, Repr

end Sys2Proof
end

