-- ==== Sys2Proof/WellFormed.lean ====
section
/-! DEFINITION. Which commands and which assembler lines are well formed (30_encoding.md R62, R63, R70, R71). -/

namespace Sys2Proof

/-- Every command the type admits is well formed: an operand is a byte by its type, every byte is a legal
operand of every format `I` command (R63), and a format `N` command has none (R62). -/
def Instr.wellFormed : Instr → Bool
  | .crcclr => true
  | .crcupd _ => true
  | .crcrd => true
  | .tblrd _ => true
  | .addb _ => true
  | .getm => true
  | .prst => true
  | .stat => true
  | .rdb _ => true
  | .len => true
  | .chk => true

/-- How many operands a line with this name takes (R70, R71): none for format `N`, one for format `I`,
any number for a pseudo-command. -/
inductive OperandCount where
  | exactly (n : Nat)
  | any
  deriving DecidableEq, Repr

/-- The operand count of each name (R62, R71). That `FEED` may have no operands is a DESIGN CHOICE (log entry 13): R71
gives that case for `CRC16` only. -/
def AsmName.operandCount : AsmName → OperandCount
  | .crcclr => .exactly 0
  | .crcupd => .exactly 1
  | .crcrd => .exactly 0
  | .tblrd => .exactly 1
  | .addb => .exactly 1
  | .getm => .exactly 0
  | .prst => .exactly 0
  | .stat => .exactly 0
  | .rdb => .exactly 1
  | .len => .exactly 0
  | .chk => .exactly 0
  | .crc16 => .any
  | .feed => .any

/-- Whether a line has as many operands as its name takes. -/
def OperandCount.admits : OperandCount → Nat → Bool
  | .exactly n, k => k == n
  | .any, _ => true

/-- A line is well formed when its operands are as many as its name takes and each is "a number from 0 to
255" (R70). -/
def AsmLine.wellFormed (l : AsmLine) : Bool :=
  l.name.operandCount.admits l.operands.length && l.operands.all (· < 256)

end Sys2Proof
end

