-- ==== Sys2Proof/Decode.lean ====
section
/-! DEFINITION. The decoder, total on all 65536 command words (30_encoding.md R61, R66, R68, R69), the encoder written
from the same table, and the expansion of assembler lines (R70, R71). -/

namespace Sys2Proof

/-- Why a command word is no command: its opcode is reserved (R68). -/
inductive DecodeError where
  | reservedOpcode (op : Byte)
  deriving DecidableEq, Repr

/-- `op = cmd[15:8]` (R61). -/
def opField (w : Half) : Byte := w.extractLsb' 8 8

/-- `imm8 = cmd[7:0]` (R61). -/
def imm8Field (w : Half) : Byte := w.extractLsb' 0 8

/-- The decoder of R69: `op` selects the row of R66, the operand byte of a format `N` command is ignored,
anything else is reserved. -/
def decode (w : Half) : Except DecodeError Instr :=
  match (opField w).toNat with
  | 0x10 => .ok .crcclr
  | 0x11 => .ok (.crcupd (imm8Field w))
  | 0x12 => .ok .crcrd
  | 0x13 => .ok (.tblrd (imm8Field w))
  | 0x20 => .ok (.addb (imm8Field w))
  | 0x21 => .ok .getm
  | 0x22 => .ok .prst
  | 0x23 => .ok .stat
  | 0x30 => .ok (.rdb (imm8Field w))
  | 0x31 => .ok .len
  | 0x32 => .ok .chk
  | _ => .error (.reservedOpcode (opField w))

/-- The opcode column of R66. -/
def Instr.opcode : Instr → Byte
  | .crcclr => 0x10
  | .crcupd _ => 0x11
  | .crcrd => 0x12
  | .tblrd _ => 0x13
  | .addb _ => 0x20
  | .getm => 0x21
  | .prst => 0x22
  | .stat => 0x23
  | .rdb _ => 0x30
  | .len => 0x31
  | .chk => 0x32

/-- The format column of R66. -/
def Instr.format : Instr → Format
  | .crcclr => .N
  | .crcupd _ => .I
  | .crcrd => .N
  | .tblrd _ => .I
  | .addb _ => .I
  | .getm => .N
  | .prst => .N
  | .stat => .N
  | .rdb _ => .I
  | .len => .N
  | .chk => .N

/-- The operand byte an assembler emits: the operand of a format `I` command, `0x00` for format `N` (R62). -/
def Instr.operandByte : Instr → Byte
  | .crcclr => 0
  | .crcupd b => b
  | .crcrd => 0
  | .tblrd b => b
  | .addb b => b
  | .getm => 0
  | .prst => 0
  | .stat => 0
  | .rdb b => b
  | .len => 0
  | .chk => 0

/-- The word `{op, imm8}` (R61, R70). -/
def commandWord (op imm8 : Byte) : Half := op ++ imm8

/-- The word of a command (R66, R70). -/
def encode (i : Instr) : Half := commandWord i.opcode i.operandByte

/-- The decoder's answer for a word as opcode_table.json numbers its bits; every bit of the command word
above `nbits` is zero. -/
def decodeTableWord (nbits w : Nat) : Option Instr :=
  match decode (BitVec.ofNat 16 (w % 2 ^ nbits)) with
  | .ok i => some i
  | .error _ => none

/-! ## Assembler lines (R70, R71) -/

/-- `CRC16 b0, ..., bn-1` is `CRCCLR`, the `CRCUPD`s, `CRCRD` (R71). -/
def expandCrc16 (bs : List Byte) : List Instr := .crcclr :: (bs.map .crcupd ++ [.crcrd])

/-- `FEED b0, ..., bn-1` is the `ADDB`s (R71); with no operands it is no command (DESIGN CHOICE, log entry 13). -/
def expandFeed (bs : List Byte) : List Instr := bs.map .addb

/-- The operand byte written first on a line. -/
def AsmLine.firstByte (l : AsmLine) : Byte := BitVec.ofNat 8 (l.operands.headD 0)

/-- The commands a well-formed line stands for; an ill-formed line stands for none (R70, R71). -/
def AsmLine.expand (l : AsmLine) : Option (List Instr) :=
  if l.wellFormed then
    match l.name with
    | .crcclr => some [.crcclr]
    | .crcupd => some [.crcupd l.firstByte]
    | .crcrd => some [.crcrd]
    | .tblrd => some [.tblrd l.firstByte]
    | .addb => some [.addb l.firstByte]
    | .getm => some [.getm]
    | .prst => some [.prst]
    | .stat => some [.stat]
    | .rdb => some [.rdb l.firstByte]
    | .len => some [.len]
    | .chk => some [.chk]
    | .crc16 => some (expandCrc16 (l.operands.map (BitVec.ofNat 8)))
    | .feed => some (expandFeed (l.operands.map (BitVec.ofNat 8)))
  else none

end Sys2Proof
end

