-- ==== Sys2Proof/Config.lean ====
section
/-! DEFINITION. The static parameters of one instance of the block (00_scope.md R8, R9). No command writes them. -/

namespace Sys2Proof

/-- The two static parameters, "fixed when the block is instantiated and not writable by any command" (R8). -/
structure Config where
  /-- `HEADER`, the 16-bit marker that opens a frame (R8). -/
  header : Half
  /-- `MAX_CAPACITY`, the number of bytes of `BUF` and of `OUT` (R9). -/
  maxCapacity : Nat
  deriving DecidableEq, Repr

/-- The legal range `6 ≤ MAX_CAPACITY ≤ 254` (R9). -/
abbrev Config.Legal (cfg : Config) : Prop := 6 ≤ cfg.maxCapacity ∧ cfg.maxCapacity ≤ 254

/-- The instance the model resets to: the default header of R8, and the 254 that the test vectors use
where they say nothing else. DESIGN CHOICE (log entry 4): the spec gives `MAX_CAPACITY` no default. -/
def Config.default : Config := { header := 0x3AA3, maxCapacity := 254 }

end Sys2Proof
end

