-- ==== Sys2Proof/Machine/State.lean ====
section
/-! DEFINITION. The state of the block (10_state.md), the host's side of the command port (30_encoding.md R60, R64), why a
step may stop, and the state after reset (10_state.md R34, 70_reset_and_hazards.md R191). -/

namespace Sys2Proof.Machine

/-- The contents of `BUF` or of `OUT`: the offsets whose byte differs from the reset image `NONE` (10_state.md
R26), rising, each with its byte. An unlisted offset reads as `NONE` has it (log entry 6). -/
abbrev Memory := List Host.Cell

/-- Which arm of 41_stream_parser.md R102 a byte took (60_exceptions.md R173). -/
inductive Cause where
  /-- Byte stored, frame not complete. -/
  | accept
  /-- Last byte stored, checksum verified. -/
  | complete
  /-- The first byte is not the low header byte. -/
  | resyncHdr0
  /-- The first two bytes are not the header. -/
  | resyncHdr1
  /-- The declared size does not fit the buffer. -/
  | resyncSize
  /-- The checksum does not match. -/
  | resyncCrc
  deriving DecidableEq, Repr

/-- The three fields of a response word (30_encoding.md R64); a field a command does not assign is zero. -/
structure Response where
  flag : Bool := false
  cause : BitVec 3 := 0
  data : Half := 0
  deriving DecidableEq, Repr

/-- What the host does to the block: issue a command word (30_encoding.md R60) or apply the external reset
(70_reset_and_hazards.md R190). -/
inductive HostInput where
  | command (word : Half)
  | reset
  deriving DecidableEq, Repr

/-- The state: the block's `CRC_ACC`, `INDEX`, `BUF`, `OUT` (10_state.md section 1), its static parameters, and the two
sides of the command port. -/
structure State where
  /-- The static parameters `HEADER` and `MAX_CAPACITY`, written by nothing (00_scope.md R8; log entry 4). -/
  cfg : Config
  /-- `CRC_ACC`, the running checksum (10_state.md R22). -/
  crcAcc : Half
  /-- `INDEX`, the parser's progress counter (10_state.md R23). -/
  index : Byte
  /-- `BUF`, the in-flight buffer (10_state.md R24). -/
  buf : Memory
  /-- `OUT`, the message output register (10_state.md R25). -/
  out : Memory
  /-- What the host will do, first thing first (00_scope.md R12; log entry 1). -/
  inputs : List HostInput
  /-- The responses given, newest first (30_encoding.md R60; log entry 3). -/
  responses : List Response
  deriving DecidableEq, Repr

/-- Why the machine stops with a fault. All three are safe: no claim about a next state can be drawn from them. -/
inductive Fault where
  /-- Raised by `ADDB` while a frame is pending: "a model treats it as a fault" (70_reset_and_hazards.md R195,
  93_implementation_defined.md U1; log entry 14). Safe. -/
  | addbWhilePending
  /-- Raised by `ADDB` when `INDEX` is no offset of `BUF`; in no reachable state (41_stream_parser.md R108 b; log
  entry 8). Safe. -/
  | storeOutsideBuf
  /-- Raised by `CHK` when the body `OUT` declares runs past the array; in no reachable state (41_stream_parser.md
  R108 g; log entry 9). Safe. -/
  | readOutsideOut
  deriving DecidableEq, Repr

/-- Why the model has no meaning for what the host issued. -/
inductive Refusal where
  /-- Raised by `exec` for a command without a meaning yet; no arm does. Safe. -/
  | notModelled (mnemonic : String)
  /-- Raised by `step` for a command word whose opcode is reserved: "A model should refuse a reserved command"
  (30_encoding.md R68, 93_implementation_defined.md U2). Safe. -/
  | reservedOpcode (op : Byte)
  deriving DecidableEq, Repr

/-- What a step answers. -/
abbrev Answer := Host.Outcome State Fault Refusal

/-- An instance right after reset: `CRC_ACC = 0`, `INDEX = 0`, `BUF = OUT = NONE` (10_state.md R34,
70_reset_and_hazards.md R191), the host having issued nothing. -/
def State.resetWith (cfg : Config) : State :=
  { cfg := cfg, crcAcc := 0, index := 0, buf := [], out := [], inputs := [], responses := [] }

/-- The machine right after reset, for the default parameters (log entry 4). -/
def State.reset : State := State.resetWith Config.default

end Sys2Proof.Machine
end

