-- ==== Sys2Proof/Machine/Ops.lean ====
section
/-! DEFINITION. The shared operations: byte order, the two byte arrays, the checksum, the updates of State, the resync
(the block's one answer to an error; it takes no exception and returns from none, 60_exceptions.md R170, R178). -/

namespace Sys2Proof.Machine

/-! ## Constants (00_scope.md R10) and byte order (R16, 20_memory.md R44, R45) -/

/-- `HEADER_BLOCK_SIZE`: header, checksum and size bytes (R10). -/
def headerBlockSize : Nat := 5

/-- `POLY`, reflected (R10). -/
def poly : Half := 0xA001

/-- `INIT` (R10). -/
def crcInit : Half := 0x0000

/-- `lo8(h) = h[7:0]` (R16). -/
def lo8 (h : Half) : Byte := h.extractLsb' 0 8

/-- `hi8(h) = h[15:8]` (R16). -/
def hi8 (h : Half) : Byte := h.extractLsb' 8 8

/-- `le16(lo, hi) = {hi, lo}` (R16). -/
def le16 (lo hi : Byte) : Half := hi ++ lo

/-! ## `BUF` and `OUT` (20_memory.md R40 to R47) -/

/-- `NONE[k]`, the byte image of the sentinel (10_state.md R26): what an unlisted offset reads as. -/
def noneByte (cfg : Config) (k : Nat) : Byte :=
  if k = 0 then lo8 cfg.header else if k = 1 then hi8 cfg.header else 0

/-- The byte at an offset of an array (20_memory.md R46). -/
def Memory.read (cfg : Config) : Memory → Nat → Byte
  | [], k => noneByte cfg k
  | (a, v) :: m, k => if k = a then v else Memory.read cfg m k

/-- The array with one byte stored, in canonical form (20_memory.md R46; log entry 6). -/
def Memory.write (cfg : Config) : Memory → Nat → Byte → Memory
  | [], k, b => if b = noneByte cfg k then [] else [(k, b)]
  | (a, v) :: m, k, b =>
    if k < a then
      if b = noneByte cfg k then (a, v) :: m else (k, b) :: (a, v) :: m
    else if k = a then
      if b = noneByte cfg k then m else (a, b) :: m
    else (a, v) :: Memory.write cfg m k b

/-- The canonical form: offsets strictly rising, all inside the array, no byte equal to what an unlisted
offset reads as. -/
abbrev Memory.wf (cfg : Config) (m : Memory) : Prop :=
  (m.map Prod.fst).Pairwise (· < ·) ∧ ∀ c ∈ m, c.1 < cfg.maxCapacity ∧ c.2 ≠ noneByte cfg c.1

/-- The array whose every byte is that of `NONE` (10_state.md R26). -/
def noneImage : Memory := []

/-! ## The checksum (40_crc_engine.md) -/

/-- One conditional shift-and-xor of R80. -/
def shiftStep (c : Half) : Half := if c.getLsbD 0 then (c >>> 1) ^^^ poly else c >>> 1

/-- Eight of them (R80, R88). -/
def shiftByte (c : Half) : Half :=
  shiftStep (shiftStep (shiftStep (shiftStep (shiftStep (shiftStep (shiftStep (shiftStep c)))))))

/-- `T[i]`, the constant table (R80; 10_state.md R21). PRESUMED by the spec (93_implementation_defined.md G1; log
entry 11). -/
def table (i : Byte) : Half := shiftByte (i.setWidth 16)

/-- `crc_step(c, b)` (R82). PRESUMED by the spec (93_implementation_defined.md G2; log entry 11). -/
def crcStep (c : Half) (b : Byte) : Half := (c >>> 8) ^^^ table (lo8 (c ^^^ b.setWidth 16))

/-- `crc16` of a byte sequence (R83). -/
def crc16 (bs : List Byte) : Half := bs.foldl crcStep crcInit

/-! ## A frame's fields in an array (10_state.md R29, 20_memory.md R41, R42) -/

/-- `X.header`. -/
def frameHeader (cfg : Config) (x : Memory) : Half := le16 (Memory.read cfg x 0) (Memory.read cfg x 1)

/-- `X.checksum`. -/
def frameChecksum (cfg : Config) (x : Memory) : Half := le16 (Memory.read cfg x 2) (Memory.read cfg x 3)

/-- `X.size`. -/
def frameSize (cfg : Config) (x : Memory) : Byte := Memory.read cfg x 4

/-- The body `X[5], ..., X[5 + X.size - 1]` (20_memory.md R42). -/
def frameBody (cfg : Config) (x : Memory) : List Byte :=
  (List.range (frameSize cfg x).toNat).map fun k => Memory.read cfg x (headerBlockSize + k)

/-- The wire bytes of the frame with a given body: header, checksum, size, body, little-endian (20_memory.md R41;
49_software_context.md R140, R145). -/
def wireFrame (cfg : Config) (body : List Byte) : List Byte :=
  [lo8 cfg.header, hi8 cfg.header, lo8 (crc16 body), hi8 (crc16 body), BitVec.ofNat 8 body.length] ++ body

/-! ## Updates of State -/

/-- The response to the current command (30_encoding.md R60, R64). -/
def answer (r : Response) (s : State) : State := { s with responses := r :: s.responses }

/-- `CRC_ACC <- c`. -/
def setCrc (c : Half) (s : State) : State := { s with crcAcc := c }

/-- `INDEX <- i`. -/
def setIndex (i : Byte) (s : State) : State := { s with index := i }

/-- `OUT <- m`, all `MAX_CAPACITY` bytes at once (10_state.md R25). -/
def setOut (m : Memory) (s : State) : State := { s with out := m }

/-- `BUF[INDEX] <- b` and then `INDEX <- INDEX + 1`, step 1 of 41_stream_parser.md R102. -/
def storeByte (b : Byte) (s : State) : State :=
  { s with buf := Memory.write s.cfg s.buf s.index.toNat b, index := s.index + 1 }

/-- The resync: `INDEX <- 0` and nothing else (60_exceptions.md R177; 10_state.md R24). -/
def resync (s : State) : State := setIndex 0 s

/-- The external reset (70_reset_and_hazards.md R190, R191): the block's state takes its reset values. The
parameters, the host's further inputs and the responses already given stay (log entry 5). -/
def applyReset (s : State) : State :=
  { State.resetWith s.cfg with inputs := s.inputs, responses := s.responses }

/-- What the host does next, and the state with that taken from the port (30_encoding.md R60). -/
def takeInput (s : State) : Option (HostInput × State) :=
  match s.inputs with
  | [] => none
  | i :: rest => some (i, { s with inputs := rest })

end Sys2Proof.Machine
end

