-- ==== Sys2Proof/Machine/Operands.lean ====
section
/-! DEFINITION. The operand forms (30_encoding.md R62, R63): every operand is the byte `imm8`, used as it stands. -/

namespace Sys2Proof.Machine

/-- `imm8` as a byte to fold or to store, as it stands (R63: `CRCUPD`, `ADDB`). -/
def byteOperand (imm8 : Byte) : Byte := imm8

/-- `imm8` as a table index 0 to 255, and the entry it selects (R63: `TBLRD`; 40_crc_engine.md R87). -/
def tableOperand (imm8 : Byte) : Half := table imm8

/-- `imm8` as a byte offset into `OUT`, and the value read there: the byte zero-extended, and `0x0000` for an
offset outside the array (R63: `RDB`; 42_message_output.md R130). -/
def outOperand (s : State) (imm8 : Byte) : Half :=
  if imm8.toNat < s.cfg.maxCapacity then (Memory.read s.cfg s.out imm8.toNat).setWidth 16 else 0x0000

end Sys2Proof.Machine
end

