-- ==== Sys2Proof/Machine/Flags.lean ====
section
/-! DEFINITION. The status and the response fields: `PENDING` (10_state.md R27), the frame length and the checksum test
(42_message_output.md R131, R132), the cause codes (60_exceptions.md R173), the response word (30_encoding.md R64). -/

namespace Sys2Proof.Machine

/-- `size + 5`, formed in 9 bits so that it cannot wrap (41_stream_parser.md R117 b). -/
def totalLength (size : Byte) : BitVec 9 := size.setWidth 9 + 5

/-- `PENDING = (INDEX ≥ 5) and (zext_9(INDEX) == zext_9(BUF[4]) + 5)` (10_state.md R27). -/
def pending (s : State) : Bool :=
  decide (headerBlockSize ≤ s.index.toNat) && s.index.setWidth 9 == totalLength (frameSize s.cfg s.buf)

/-- Whether a frame's checksum field equals the checksum of its body (40_crc_engine.md R90). -/
def frameVerified (cfg : Config) (x : Memory) : Bool := crc16 (frameBody cfg x) == frameChecksum cfg x

/-- Whether the whole frame an array declares lies inside the array (00_scope.md R9). -/
def frameFits (cfg : Config) (x : Memory) : Bool := decide ((totalLength (frameSize cfg x)).toNat ≤ cfg.maxCapacity)

/-- The total length of an array's frame as response data (41_stream_parser.md R104, 42_message_output.md R131). -/
def lengthData (cfg : Config) (x : Memory) : Half := (totalLength (frameSize cfg x)).setWidth 16

/-- The code column of 60_exceptions.md R173. -/
def Cause.code : Cause → BitVec 3
  | .accept => 0
  | .complete => 1
  | .resyncHdr0 => 2
  | .resyncHdr1 => 3
  | .resyncSize => 4
  | .resyncCrc => 5

/-- The four arms that end in a resync (60_exceptions.md R172). -/
def Cause.isResync : Cause → Bool
  | .accept => false
  | .complete => false
  | .resyncHdr0 => true
  | .resyncHdr1 => true
  | .resyncSize => true
  | .resyncCrc => true

/-- The flag column of 60_exceptions.md R173: true on a verified frame boundary only (41_stream_parser.md R101). -/
def Cause.flag (c : Cause) : Bool := c == .complete

/-- The 20-bit response word: `flag = rsp[19]`, `cause = rsp[18:16]`, `data = rsp[15:0]` (30_encoding.md R64). -/
def Response.word (r : Response) : BitVec 20 := BitVec.ofBool r.flag ++ r.cause ++ r.data

end Sys2Proof.Machine
end

