-- ==== Sys2Proof/Machine/CrcEngine.lean ====
section
/-! DEFINITION. The checksum engine's commands (40_crc_engine.md R84 to R87). -/

namespace Sys2Proof.Machine

/-- `CRCCLR`: `CRC_ACC <- 0x0000` (R84). -/
def execCrcclr (s : State) : Answer := .next (answer {} (setCrc crcInit s))

/-- `CRCUPD imm8`: `CRC_ACC <- crc_step(CRC_ACC, imm8)` (R85). -/
def execCrcupd (imm8 : Byte) (s : State) : Answer :=
  .next (answer {} (setCrc (crcStep s.crcAcc (byteOperand imm8)) s))

/-- `CRCRD`: `rsp.data <- CRC_ACC` (R86). -/
def execCrcrd (s : State) : Answer := .next (answer { data := s.crcAcc } s)

/-- `TBLRD imm8`: `rsp.data <- T[imm8]` (R87). -/
def execTblrd (imm8 : Byte) (s : State) : Answer := .next (answer { data := tableOperand imm8 } s)

end Sys2Proof.Machine
end

