-- ==== Sys2Proof/Machine/MessageOutput.lean ====
section
/-! DEFINITION. The message output register's commands (42_message_output.md R130 to R132). -/

namespace Sys2Proof.Machine

/-- `RDB imm8`: read one byte of the taken frame (R130). -/
def execRdb (imm8 : Byte) (s : State) : Answer := .next (answer { data := outOperand s imm8 } s)

/-- `LEN`: total length of the taken frame (R131). -/
def execLen (s : State) : Answer := .next (answer { data := lengthData s.cfg s.out } s)

/-- `CHK`: verify the taken frame's checksum (R132). A body that runs past the array has bytes that do not exist
(20_memory.md R40): a fault, in no reachable state (41_stream_parser.md R108 g, R117 c). -/
def execChk (s : State) : Answer :=
  if frameFits s.cfg s.out then .next (answer { flag := frameVerified s.cfg s.out } s)
  else .fault .readOutsideOut

end Sys2Proof.Machine
end

