-- ==== Sys2Proof/Machine/StreamParser.lean ====
section
/-! DEFINITION. The stream parser's commands (41_stream_parser.md R102, R104, R107, R109). -/

namespace Sys2Proof.Machine

/-- Which arm of R102 the byte takes, in the state with the byte stored and `INDEX` incremented (R102 steps 2
to 4, in the order of 60_exceptions.md R175). -/
def parserArm (b : Byte) (s : State) : Cause :=
  let i := s.index.toNat
  let whole := (totalLength (frameSize s.cfg s.buf)).toNat
  if i = 1 then if b = lo8 s.cfg.header then .accept else .resyncHdr0
  else if i = 2 then if frameHeader s.cfg s.buf = s.cfg.header then .accept else .resyncHdr1
  else if i < headerBlockSize then .accept
  else if s.cfg.maxCapacity < whole then .resyncSize
  else if i < whole then .accept
  else if frameVerified s.cfg s.buf then .complete
  else .resyncCrc

/-- The end of an arm: the response, after a resync where the arm has one (R102 step 5; 60_exceptions.md R173). -/
def endArm (c : Cause) (s : State) : State :=
  answer { flag := c.flag, cause := c.code } (if c.isResync then resync s else s)

/-- `ADDB imm8`: give the parser the next byte (R102). With a frame pending the spec defines nothing and asks for
a fault (70_reset_and_hazards.md R195); a store offset outside `BUF` stops too (R108 b). -/
def execAddb (imm8 : Byte) (s : State) : Answer :=
  if pending s then .fault .addbWhilePending
  else if s.index.toNat < s.cfg.maxCapacity then
    let stored := storeByte (byteOperand imm8) s
    .next (endArm (parserArm (byteOperand imm8) stored) stored)
  else .fault .storeOutsideBuf

/-- `GETM`: take the completed frame, or the sentinel when none is pending (R104). -/
def execGetm (s : State) : Answer :=
  if pending s then
    .next (answer { flag := true, data := lengthData s.cfg s.buf } (setIndex 0 (setOut s.buf s)))
  else .next (answer { data := 5 } (setOut noneImage s))

/-- `PRST`: `INDEX <- 0` (R107). -/
def execPrst (s : State) : Answer := .next (answer {} (setIndex 0 s))

/-- `STAT`: `rsp.flag <- PENDING; rsp.data <- zext_16(INDEX)` (R109). -/
def execStat (s : State) : Answer := .next (answer { flag := pending s, data := s.index.setWidth 16 } s)

end Sys2Proof.Machine
end

