-- ==== Sys2Proof/Machine/Dispatch.lean ====
section
/-! DEFINITION. One arm per command of 30_encoding.md R66, each a direct call of its meaning. -/

namespace Sys2Proof.Machine

def exec (i : Instr) (s : State) : Host.Outcome State Fault Refusal :=
  match i with
  | .crcclr => Sys2Proof.Machine.execCrcclr s
  | .crcupd imm8 => Sys2Proof.Machine.execCrcupd imm8 s
  | .crcrd => Sys2Proof.Machine.execCrcrd s
  | .tblrd imm8 => Sys2Proof.Machine.execTblrd imm8 s
  | .addb imm8 => Sys2Proof.Machine.execAddb imm8 s
  | .getm => Sys2Proof.Machine.execGetm s
  | .prst => Sys2Proof.Machine.execPrst s
  | .stat => Sys2Proof.Machine.execStat s
  | .rdb imm8 => Sys2Proof.Machine.execRdb imm8 s
  | .len => Sys2Proof.Machine.execLen s
  | .chk => Sys2Proof.Machine.execChk s

end Sys2Proof.Machine
end

