-- ==== Sys2Proof/Machine/Step.lean ====
section
/-! DEFINITION. One step: the block answers the host's next command (30_encoding.md R60), or is reset
(70_reset_and_hazards.md R190), or stands still when the host does nothing (00_scope.md R12). -/

namespace Sys2Proof.Machine

/-- A command word at the port: its command is executed, a reserved opcode is refused by name (30_encoding.md R68,
R69). -/
def runWord (w : Half) (s : State) : Host.Outcome State Fault Refusal :=
  match decode w with
  | .ok i => exec i s
  | .error (.reservedOpcode op) => .refused (.reservedOpcode op)

/-- One step. With nothing from the host the block does nothing (00_scope.md R12, 70_reset_and_hazards.md R201; log
entry 2). -/
def step (s : State) : Host.Outcome State Fault Refusal :=
  match takeInput s with
  | none => .next s
  | some (.command w, s') => runWord w s'
  | some (.reset, s') => .next (applyReset s')

/-- `s` with the host issuing this word next: the bits above `nbits` are zero (log entry 7). -/
def State.withFetchWord (s : State) (nbits w : Nat) : State :=
  { s with inputs := .command (BitVec.ofNat 16 (w % 2 ^ nbits)) :: s.inputs }

end Sys2Proof.Machine
end

