-- ==== Sys2Proof/Machine/Assembler.lean ====
section
/-! DEFINITION. The text of an assembler program (30_encoding.md R70, R71): one line per command, `;` comments, decimal
or `0x` operands; a line's encoding is its command words. No command of the block depends on this file. -/

namespace Sys2Proof.Machine

/-- The spelling of each name: the mnemonics of R66 and the pseudo-commands of R71. -/
def spelling : AsmName → List Char
  | .crcclr => ['C', 'R', 'C', 'C', 'L', 'R']
  | .crcupd => ['C', 'R', 'C', 'U', 'P', 'D']
  | .crcrd => ['C', 'R', 'C', 'R', 'D']
  | .tblrd => ['T', 'B', 'L', 'R', 'D']
  | .addb => ['A', 'D', 'D', 'B']
  | .getm => ['G', 'E', 'T', 'M']
  | .prst => ['P', 'R', 'S', 'T']
  | .stat => ['S', 'T', 'A', 'T']
  | .rdb => ['R', 'D', 'B']
  | .len => ['L', 'E', 'N']
  | .chk => ['C', 'H', 'K']
  | .crc16 => ['C', 'R', 'C', '1', '6']
  | .feed => ['F', 'E', 'E', 'D']

/-- All names a line may start with. -/
def allNames : List AsmName :=
  [.crcclr, .crcupd, .crcrd, .tblrd, .addb, .getm, .prst, .stat, .rdb, .len, .chk, .crc16, .feed]

/-- The characters that separate words on a line (log entry 13). -/
def isBlank (c : Char) : Bool := c == ' ' || c == '\t' || c == '\r'

/-- Text without blanks at its ends. -/
def trimBlanks (cs : List Char) : List Char := ((cs.dropWhile isBlank).reverse.dropWhile isBlank).reverse

/-- Text cut at every occurrence of a character. -/
def cutAt (sep : Char) : List Char → List (List Char)
  | [] => [[]]
  | c :: cs => if c == sep then [] :: cutAt sep cs else
      match cutAt sep cs with
      | [] => [[c]]
      | first :: more => (c :: first) :: more

/-- The digits of R70, each at the place of its value; the first ten are the decimal digits. -/
def digits : List Char := "0123456789ABCDEF".toList

/-- The value of a digit of a base up to sixteen: its place among the digits of that base. -/
def digitValue (base : Nat) (c : Char) : Option Nat := (digits.take base).findIdx? (· == c)

/-- The value of a hexadecimal digit, in either case (log entry 13). -/
def hexValue (c : Char) : Option Nat := digitValue 16 c.toUpper

/-- The value of decimal digits after a value already read. -/
def decimalFrom (n : Nat) : List Char → Option Nat
  | [] => some n
  | c :: cs =>
    match digitValue 10 c with
    | some d => decimalFrom (10 * n + d) cs
    | none => none

/-- A number: decimal digits, or `0x` and two hexadecimal digits (R70). -/
def parseNumber : List Char → Option Nat
  | [] => none
  | ['0', 'x', h, l] => do
    let hi ← hexValue h
    let lo ← hexValue l
    some (16 * hi + lo)
  | c :: cs => decimalFrom 0 (c :: cs)

/-- The operands after a name: none, or numbers between commas (R70, R71). -/
def parseOperands (cs : List Char) : Option (List Nat) :=
  match trimBlanks cs with
  | [] => some []
  | rest => (cutAt ',' rest).mapM fun word => parseNumber (trimBlanks word)

/-- The commands of one line of text: the comment dropped, the name and operands read, the line expanded (R70,
R71). A line with nothing but blanks stands for no command. -/
def assembleLine (cs : List Char) : Option (List Instr) :=
  match trimBlanks (cs.takeWhile (· != ';')) with
  | [] => some []
  | text =>
    let name := text.takeWhile fun c => !isBlank c
    match allNames.find? fun n => spelling n == name with
    | none => none
    | some n =>
      match parseOperands (text.dropWhile fun c => !isBlank c) with
      | none => none
      | some operands => AsmLine.expand { name := n, operands := operands }

/-- The command words of a program text, in the order the host issues them (R70). -/
def assemble (cs : List Char) : Option (List Half) := do
  let lines ← (cutAt '\n' cs).mapM assembleLine
  some (lines.flatten.map encode)

/-- The hexadecimal digit of a value below sixteen. -/
def hexDigit (n : Nat) : Char := digits.getD n '0'

/-- The line an assembler writes for a byte operand: `0x` and two hexadecimal digits (R70). -/
def renderByte (b : Byte) : List Char := ['0', 'x', hexDigit (b.toNat / 16), hexDigit (b.toNat % 16)]

/-- The text of a command (R70). -/
def renderInstr : Instr → List Char
  | .crcclr => spelling .crcclr
  | .crcupd b => spelling .crcupd ++ ' ' :: renderByte b
  | .crcrd => spelling .crcrd
  | .tblrd b => spelling .tblrd ++ ' ' :: renderByte b
  | .addb b => spelling .addb ++ ' ' :: renderByte b
  | .getm => spelling .getm
  | .prst => spelling .prst
  | .stat => spelling .stat
  | .rdb b => spelling .rdb ++ ' ' :: renderByte b
  | .len => spelling .len
  | .chk => spelling .chk

/-- The encoding of a line "as four hexadecimal digits" (R70). -/
def renderWord (w : Half) : List Char :=
  [hexDigit (w.toNat / 4096), hexDigit (w.toNat / 256 % 16), hexDigit (w.toNat / 16 % 16), hexDigit (w.toNat % 16)]

end Sys2Proof.Machine
end

