-- ==== Sys2Proof/Safety.lean ====
section
/-! DEFINITION. What a safe run is: the invariant of 41_stream_parser.md R108, the host's duty of
70_reset_and_hazards.md R195 and R200, and the runs that claims speak of (R201). -/

namespace Sys2Proof.Machine

/-- The invariant of 41_stream_parser.md R108, clause by clause, with the legal range of the parameter (00_scope.md R9)
and the canonical form of the two arrays. -/
structure State.Inv (s : State) : Prop where
  legal : s.cfg.Legal
  bufWf : Memory.wf s.cfg s.buf
  outWf : Memory.wf s.cfg s.out
  /-- R108 a -/
  indexLe : s.index.toNat ≤ s.cfg.maxCapacity
  /-- R108 c -/
  lowHeader : 1 ≤ s.index.toNat → Memory.read s.cfg s.buf 0 = lo8 s.cfg.header
  /-- R108 d -/
  highHeader : 2 ≤ s.index.toNat → Memory.read s.cfg s.buf 1 = hi8 s.cfg.header
  /-- R108 e -/
  sizeFits : 5 ≤ s.index.toNat →
    (frameSize s.cfg s.buf).toNat + 5 ≤ s.cfg.maxCapacity ∧ s.index.toNat ≤ (frameSize s.cfg s.buf).toNat + 5
  /-- R108 f -/
  pendingVerified : pending s = true → frameVerified s.cfg s.buf = true
  /-- R108 g -/
  outHeader : frameHeader s.cfg s.out = s.cfg.header
  /-- R108 g -/
  outFits : (frameSize s.cfg s.out).toNat + 5 ≤ s.cfg.maxCapacity
  /-- R108 g -/
  outVerified : frameVerified s.cfg s.out = true

/-- The host's duty for the next input (70_reset_and_hazards.md R195, R200): a command word it issues is no reserved
one, and no `ADDB` while a frame is pending. -/
def State.HostObeys (s : State) : Prop :=
  ∀ w rest, s.inputs = .command w :: rest →
    ∃ i, decode w = .ok i ∧ ∀ b, i = .addb b → pending s = false

/-- The commands of a list, one after the other (20_memory.md R49). -/
def execAll : List Instr → State → Answer
  | [], s => .next s
  | i :: is, s =>
    match exec i s with
    | .next s' => execAll is s'
    | .fault r => .fault r
    | .refused r => .refused r

/-- `k` steps of the machine, stopping at the first fault or refusal. -/
def run (k : Nat) (s : State) : Answer := Host.Core.run Sys2Proof.core k s

/-- The host's commands as it issues them at the port (30_encoding.md R60, R70). -/
def issued (is : List Instr) : List HostInput := is.map fun i => .command (encode i)

/-- The bytes that the `CRCUPD` commands of a list fold in, in order (40_crc_engine.md R86). -/
def foldedBytes : List Instr → List Byte
  | [] => []
  | .crcupd b :: is => b :: foldedBytes is
  | _ :: is => foldedBytes is

end Sys2Proof.Machine
end

