-- ==== Sys2Proof/Certificates/Slice0/Obligations.lean ====
section
/-! DEFINITION. The statements for the provers: what the commands and the machine do, as the numbered rules of spec/ say
it. Each docstring names the rule. -/

open Sys2Proof Sys2Proof.Machine

/-! ## Encoding (30_encoding.md) -/

/-- R61, R62, R66, R69: decoding an encoded command gives it back, and encoding a decoded word gives the word back,
with the operand byte that a format `N` command ignores set to zero. -/
def Obligations.DecodeEncodeAgree : Prop :=
  (∀ i : Instr, i.wellFormed = true → decode (encode i) = .ok i) ∧
  ∀ (w : Half) (i : Instr), decode w = .ok i →
    encode i = match i.format with
      | .I => w
      | .N => w &&& 0xFF00

/-- R69: the opcode selects the row, the operand byte is read for format `I` and ignored for format `N`, and a word
whose opcode is no row's is reserved. -/
def Obligations.DecoderTotalOnEveryWord : Prop :=
  (∀ (w : Half) (i : Instr),
    decode w = .ok i ↔ opField w = i.opcode ∧ (i.format = .I → imm8Field w = i.operandByte)) ∧
  ∀ w : Half,
    opField w ∉ [0x10, 0x11, 0x12, 0x13, 0x20, 0x21, 0x22, 0x23, 0x30, 0x31, 0x32] ↔
      decode w = .error (.reservedOpcode (opField w))

/-- 95_test_vectors.md V40, V41: words written out bit by bit decode to the commands they stand for. -/
def Obligations.WrittenWordsDecode : Prop :=
  decode 0b0001000000000000#16 = .ok .crcclr ∧
  decode 0b0001000100110001#16 = .ok (.crcupd 0x31) ∧
  decode 0b0001001110000000#16 = .ok (.tblrd 0x80) ∧
  decode 0b0010000010100011#16 = .ok (.addb 0xA3) ∧
  decode 0b0010000111111111#16 = .ok .getm ∧
  decode 0b0010001100000000#16 = .ok .stat ∧
  decode 0b0011000000001100#16 = .ok (.rdb 12) ∧
  decode 0b0011001000000000#16 = .ok .chk ∧
  decode 0b0001010000000000#16 = .error (.reservedOpcode 0x14)

/-- R64: the three fields of the response word, and that only `ADDB` sets the cause. -/
def Obligations.ResponseWordFields : Prop :=
  (∀ r : Response,
    r.word.getLsbD 19 = r.flag ∧ r.word.extractLsb' 16 3 = r.cause ∧ r.word.extractLsb' 0 16 = r.data) ∧
  ∀ (i : Instr) (s t : State), exec i s = .next t → (∀ b, i ≠ .addb b) →
    ∃ r, t.responses = r :: s.responses ∧ r.cause = 0

/-- R70: a command's text, assembled, is that command (log entry 13 says which texts are read). -/
def Obligations.AssemblingRenderedTextGivesTheCommand : Prop :=
  ∀ i : Instr, assembleLine (renderInstr i) = some [i]

/-! ## The step -/

/-- R12, R60: when the word at the port decodes to a command, a step takes it from the port and is `exec` of it. -/
def Obligations.StepRunsTheDecodedCommand : Prop :=
  ∀ (s : State) (w : Half) (rest : List HostInput) (i : Instr),
    s.inputs = .command w :: rest → decode w = .ok i → step s = exec i { s with inputs := rest }

/-- R68, U2: a command word with a reserved opcode is refused by name. The refusal is the model's answer that the spec
asks for (log entry 10). -/
def Obligations.StepRefusesReservedOpcodes : Prop :=
  ∀ (s : State) (w : Half) (rest : List HostInput),
    s.inputs = .command w :: rest →
    opField w ∉ [0x10, 0x11, 0x12, 0x13, 0x20, 0x21, 0x22, 0x23, 0x30, 0x31, 0x32] →
    step s = .refused (.reservedOpcode (opField w))

/-- R12: the block never acts on its own. The model's choice is that a step with nothing from the host changes nothing
(log entry 2). -/
def Obligations.StepWithoutInputChangesNothing : Prop :=
  ∀ s : State, s.inputs = [] → step s = .next s

/-- R170: every command returns a response. Under the invariant of R108, a command other than `ADDB` on a pending frame
answers a next state, with one more response and the command taken from the port. -/
def Obligations.EveryCommandIsAnswered : Prop :=
  ∀ (s : State) (w : Half) (rest : List HostInput) (i : Instr),
    s.Inv → s.inputs = .command w :: rest → decode w = .ok i →
    (∀ b, i = .addb b → pending s = false) →
    ∃ t r, step s = .next t ∧ t.responses = r :: s.responses ∧ t.inputs = rest

/-- R195, U1, and the stops of log entries 8 and 9: when the model stops with a fault. -/
def Obligations.WhereTheCommandsStop : Prop :=
  (∀ (s : State) (b : Byte), pending s = true → exec (.addb b) s = .fault .addbWhilePending) ∧
  (∀ (s : State) (b : Byte), pending s = false → s.cfg.maxCapacity ≤ s.index.toNat →
    exec (.addb b) s = .fault .storeOutsideBuf) ∧
  (∀ s : State, s.cfg.maxCapacity < (Memory.read s.cfg s.out 4).toNat + 5 →
    exec .chk s = .fault .readOutsideOut) ∧
  ∀ (i : Instr) (s : State) (f : Fault), exec i s = .fault f → (∃ b, i = .addb b) ∨ i = .chk

/-! ## Reset (10_state.md, 70_reset_and_hazards.md) -/

/-- R191: the state after reset of an instance with any legal parameters. -/
def Obligations.StateAfterReset : Prop :=
  ∀ cfg : Config, cfg.Legal →
    let s := State.resetWith cfg
    let none (k : Nat) : Byte := if k = 0 then lo8 cfg.header else if k = 1 then hi8 cfg.header else 0
    s.cfg = cfg ∧ s.crcAcc = 0x0000 ∧ s.index = 0x00 ∧
    (∀ k, k < cfg.maxCapacity → Memory.read cfg s.buf k = none k) ∧
    (∀ k, k < cfg.maxCapacity → Memory.read cfg s.out k = none k) ∧
    pending s = false ∧
    ∀ i : Byte, exec (.tblrd i) s =
      .next { s with
        responses :=
          [⟨false, 0,
            (fun c : Half => if c.getLsbD 0 = true then (c >>> 1) ^^^ 0xA001 else c >>> 1)^[8] (i.setWidth 16)⟩] }

/-- R190: the reset applied from outside gives the block's state the values of R191, whatever it was. That the host's
further inputs and the responses given stay is the model's choice (log entry 5). -/
def Obligations.ExternalResetFromAnyState : Prop :=
  ∀ (s : State) (rest : List HostInput), s.inputs = .reset :: rest →
    step s = .next { State.resetWith s.cfg with inputs := rest, responses := s.responses }

/-- R26: the sentinel's bytes, and that `CHK` on it is true. -/
def Obligations.SentinelImageAndItsCheck : Prop :=
  (∀ cfg : Config, Memory.read cfg noneImage 0 = lo8 cfg.header ∧ Memory.read cfg noneImage 1 = hi8 cfg.header ∧
    ∀ k, 2 ≤ k → Memory.read cfg noneImage k = 0x00) ∧
  ∀ s : State, s.cfg.Legal → s.out = noneImage →
    exec .chk s = .next { s with responses := ⟨true, 0, 0⟩ :: s.responses }

/-! ## The checksum engine (40_crc_engine.md) -/

/-- R80, which the spec marks as from general knowledge (log entry 11): every table entry is eight conditional shifts of
its index. -/
def Obligations.TableEntriesAreEightShifts : Prop :=
  ∀ i : Byte,
    table i = (fun c : Half => if c.getLsbD 0 = true then (c >>> 1) ^^^ 0xA001 else c >>> 1)^[8] (i.setWidth 16)

/-- R82, which the spec marks as from general knowledge (log entry 11), and R88, which the spec derives: the byte step
through the table equals eight conditional shifts of the word with the byte folded in. -/
def Obligations.ByteStepWithoutTheTable : Prop :=
  ∀ (c : Half) (b : Byte),
    (c >>> 8) ^^^ table ((c ^^^ b.setWidth 16).extractLsb' 0 8) = crcStep c b ∧
    crcStep c b =
      (fun c : Half => if c.getLsbD 0 = true then (c >>> 1) ^^^ 0xA001 else c >>> 1)^[8] (c ^^^ b.setWidth 16)

/-- R89 a, b: the table and the checksum of sequences of one length are linear. -/
def Obligations.ChecksumIsLinear : Prop :=
  (∀ i j : Byte, table (i ^^^ j) = table i ^^^ table j) ∧ table 0 = 0 ∧
  ∀ x y : List Byte, x.length = y.length →
    crc16 (List.zipWith (· ^^^ ·) x y) = crc16 x ^^^ crc16 y

/-- R89 c: zero bytes sum to zero and leading zero bytes do not count, and so the two frames it names are frames. -/
def Obligations.LeadingZerosDoNotCount : Prop :=
  (∀ (n : Nat) (m : List Byte), crc16 (List.replicate n 0x00 ++ m) = crc16 m) ∧
  (∀ n : Nat, crc16 (List.replicate n 0x00) = 0x0000) ∧
  ∀ cfg : Config,
    wireFrame cfg [0x00] = [lo8 cfg.header, hi8 cfg.header, 0x00, 0x00, 0x01, 0x00] ∧
    wireFrame cfg [] = [lo8 cfg.header, hi8 cfg.header, 0x00, 0x00, 0x00]

/-- R89 d: a sequence followed by its own checksum, low byte first, sums to zero. -/
def Obligations.ChecksumResidueIsZero : Prop :=
  ∀ m : List Byte, crc16 (m ++ [lo8 (crc16 m), hi8 (crc16 m)]) = 0x0000

/-- R84: `CRCCLR`. -/
def Obligations.CrcclrClearsTheAccumulator : Prop :=
  (∀ b : Byte, decode (0x1000 ||| b.setWidth 16) = .ok .crcclr) ∧
  ∀ s : State, exec .crcclr s = .next { s with crcAcc := 0x0000, responses := ⟨false, 0, 0⟩ :: s.responses }

/-- R85: `CRCUPD`, with the rule's example. -/
def Obligations.CrcupdFoldsOneByte : Prop :=
  (∀ b : Byte, decode (0x1100 ||| b.setWidth 16) = .ok (.crcupd b)) ∧
  (∀ (s : State) (b : Byte), exec (.crcupd b) s =
    .next { s with
      crcAcc := (s.crcAcc >>> 8) ^^^ table ((s.crcAcc ^^^ b.setWidth 16).extractLsb' 0 8)
      responses := ⟨false, 0, 0⟩ :: s.responses }) ∧
  crcStep 0x0000 0x0A = 0x0780 ∧ crcStep 0x0780 0x68 = 0x4E07

/-- R86: `CRCRD`, and that after `CRCCLR` and any commands without another `CRCCLR` it returns the checksum of the
bytes that the `CRCUPD` commands among them folded in; with the rule's example. -/
def Obligations.CrcrdReturnsTheChecksumOfTheRange : Prop :=
  (∀ b : Byte, decode (0x1200 ||| b.setWidth 16) = .ok .crcrd) ∧
  (∀ s : State, exec .crcrd s = .next { s with responses := ⟨false, 0, s.crcAcc⟩ :: s.responses }) ∧
  (∀ (is : List Instr) (s t : State), (∀ i ∈ is, i ≠ .crcclr) → execAll (.crcclr :: is) s = .next t →
    exec .crcrd t = .next { t with responses := ⟨false, 0, crc16 (foldedBytes is)⟩ :: t.responses }) ∧
  crc16 [0x31, 0x32, 0x33, 0x34, 0x35, 0x36, 0x37, 0x38, 0x39] = 0xBB3D

/-- R87: `TBLRD`, with its two examples. -/
def Obligations.TblrdReadsOneEntry : Prop :=
  (∀ b : Byte, decode (0x1300 ||| b.setWidth 16) = .ok (.tblrd b)) ∧
  (∀ (s : State) (i : Byte), exec (.tblrd i) s = .next { s with responses := ⟨false, 0, table i⟩ :: s.responses }) ∧
  table 0x01 = 0xC0C1 ∧ table 0xFF = 0x4040

/-- R71: the expansions of the two pseudo-commands (that of `FEED` with no operands is the model's choice, log entry 13),
and that the commands of `CRC16` return the checksum of its
operands and leave the parser and the output register alone. -/
def Obligations.PseudoCommandsExpand : Prop :=
  (∀ ops : List Nat, (∀ n ∈ ops, n < 256) →
    AsmLine.expand ⟨.crc16, ops⟩ = some (.crcclr :: ((ops.map fun n => .crcupd (BitVec.ofNat 8 n)) ++ [.crcrd])) ∧
    AsmLine.expand ⟨.feed, ops⟩ = some (ops.map fun n => .addb (BitVec.ofNat 8 n))) ∧
  ∀ (bs : List Byte) (s : State),
    execAll (.crcclr :: (bs.map .crcupd ++ [.crcrd])) s =
      .next { s with
        crcAcc := crc16 bs
        responses := ⟨false, 0, crc16 bs⟩ :: (List.replicate (bs.length + 1) ⟨false, 0, 0⟩ ++ s.responses) }

/-- R116 b, in the checksum: changing one byte of a sequence, in one bit or in more, changes its checksum. -/
def Obligations.ChecksumSeesAnyChangedByte : Prop :=
  ∀ (x y : List Byte) (b e : Byte), e ≠ 0 → crc16 (x ++ (b ^^^ e) :: y) ≠ crc16 (x ++ b :: y)

/-! ## The stream parser (41_stream_parser.md) -/

/-- R102: `ADDB`, arm by arm, from a state that meets R108 and has no frame pending; and when `PENDING` becomes 1. -/
def Obligations.AddbFollowsTheParserSteps : Prop :=
  (∀ b : Byte, decode (0x2000 ||| b.setWidth 16) = .ok (.addb b)) ∧
  ∀ (s : State) (b : Byte), s.Inv → pending s = false →
    let m := Memory.write s.cfg s.buf s.index.toNat b
    let at' (k : Nat) : Byte := Memory.read s.cfg m k
    let i := s.index.toNat + 1
    let size := (at' 4).toNat
    let ends (flag : Bool) (cause : BitVec 3) (index : Nat) : State :=
      { s with buf := m, index := BitVec.ofNat 8 index, responses := ⟨flag, cause, 0⟩ :: s.responses }
    let t :=
      if i = 1 then
        if b = lo8 s.cfg.header then ends false 0 i else ends false 2 0
      else if i = 2 then
        if le16 (at' 0) (at' 1) = s.cfg.header then ends false 0 i else ends false 3 0
      else if i < 5 then ends false 0 i
      else if size + 5 > s.cfg.maxCapacity then ends false 4 0
      else if i < size + 5 then ends false 0 i
      else if crc16 ((List.range size).map fun k => at' (5 + k)) = le16 (at' 2) (at' 3) then ends true 1 i
      else ends false 5 0
    exec (.addb b) s = .next t ∧ (pending t = true ↔ t.responses.head?.map Response.flag = some true)

/-- R24, R196: what `ADDB` leaves alone. In `BUF` the byte at the store offset `INDEX` becomes the operand and every
other byte stays; nothing else but `INDEX` and the response changes. -/
def Obligations.AddbStoresOneByteOnly : Prop :=
  ∀ (s t : State) (b : Byte), Memory.wf s.cfg s.buf → exec (.addb b) s = .next t →
    Memory.read t.cfg t.buf s.index.toNat = b ∧
    (∀ k, k ≠ s.index.toNat → Memory.read t.cfg t.buf k = Memory.read s.cfg s.buf k) ∧
    t.cfg = s.cfg ∧ t.crcAcc = s.crcAcc ∧ t.out = s.out ∧ t.inputs = s.inputs ∧
    ∃ r, t.responses = r :: s.responses

/-- R110, which the spec derives from R102 and R108: every `ADDB` with nothing pending returns and either increments `INDEX` by one or sets it to 0, and after at
most `MAX_CAPACITY` of them the parser has returned complete or has passed through `INDEX = 0`. -/
def Obligations.ParserMakesForwardProgress : Prop :=
  (∀ (s : State) (b : Byte), s.Inv → pending s = false →
    ∃ t, exec (.addb b) s = .next t ∧ (t.index.toNat = s.index.toNat + 1 ∨ t.index = 0)) ∧
  ∀ (s : State) (bs : List Byte), s.Inv → pending s = false → bs.length = s.cfg.maxCapacity →
    ∃ k t, 1 ≤ k ∧ k ≤ s.cfg.maxCapacity ∧ execAll ((bs.take k).map .addb) s = .next t ∧
      (pending t = true ∨ t.index = 0)

/-- R172, R173, R177: the row of the cause table that an `ADDB` takes. Code, flag and `INDEX` after go together, codes
6 and 7 never occur, and a resync writes `INDEX <- 0` and nothing beside the stored byte. -/
def Obligations.CauseCodesAndResync : Prop :=
  ∀ (s t : State) (b : Byte), s.Inv → exec (.addb b) s = .next t →
    ∃ r, t.responses = r :: s.responses ∧ r.data = 0 ∧
      t.buf = Memory.write s.cfg s.buf s.index.toNat b ∧
      t.cfg = s.cfg ∧ t.crcAcc = s.crcAcc ∧ t.out = s.out ∧ t.inputs = s.inputs ∧
      ((r.cause = 0 ∧ r.flag = false ∧ t.index.toNat = s.index.toNat + 1) ∨
       (r.cause = 1 ∧ r.flag = true ∧ t.index.toNat = (Memory.read t.cfg t.buf 4).toNat + 5) ∨
       (r.cause ∈ [2, 3, 4, 5] ∧ r.flag = false ∧ t.index = 0))

/-- R112: a size byte that does not fit the buffer resyncs at once with cause 4, and no other does. -/
def Obligations.OversizeSizeByteResyncs : Prop :=
  ∀ (s : State) (b : Byte), s.Inv → s.index = 4 →
    (b.toNat + 5 > s.cfg.maxCapacity → exec (.addb b) s =
      .next { s with
        buf := Memory.write s.cfg s.buf 4 b
        index := 0
        responses := ⟨false, 4, 0⟩ :: s.responses }) ∧
    (b.toNat + 5 ≤ s.cfg.maxCapacity →
      ∃ t r, exec (.addb b) s = .next t ∧ t.responses = r :: s.responses ∧ r.cause ≠ 4)

/-- R113: the empty frame completes on its size byte exactly when its checksum field is zero, and else resyncs with
cause 5. -/
def Obligations.EmptyFrameCompletesOnItsSizeByte : Prop :=
  ∀ s : State, s.Inv → s.index = 4 →
    exec (.addb 0x00) s = .next
      (if le16 (Memory.read s.cfg s.buf 2) (Memory.read s.cfg s.buf 3) = 0x0000 then
        { s with
          buf := Memory.write s.cfg s.buf 4 0x00
          index := 5
          responses := ⟨true, 1, 0⟩ :: s.responses }
      else
        { s with
          buf := Memory.write s.cfg s.buf 4 0x00
          index := 0
          responses := ⟨false, 5, 0⟩ :: s.responses })

/-- R114: once `INDEX ≥ 2` no byte is compared with the header, so neither header cause occurs. -/
def Obligations.HeaderBytesInsideAFrameAreData : Prop :=
  ∀ (s t : State) (b : Byte), s.cfg.Legal → 2 ≤ s.index.toNat → exec (.addb b) s = .next t →
    ∃ r, t.responses = r :: s.responses ∧ r.cause ≠ 2 ∧ r.cause ≠ 3

/-- R103 c: a failed second byte is given up with the first, even when it could open a frame itself. -/
def Obligations.FailedSecondByteIsNotReexamined : Prop :=
  ∀ (s : State) (b : Byte), s.Inv → s.index = 1 → b ≠ hi8 s.cfg.header →
    exec (.addb b) s = .next
      { s with
        buf := Memory.write s.cfg s.buf 1 b
        index := 0
        responses := ⟨false, 3, 0⟩ :: s.responses }

/-- R104: `GETM`, both arms. -/
def Obligations.GetmTakesTheFrameOrTheSentinel : Prop :=
  (∀ b : Byte, decode (0x2100 ||| b.setWidth 16) = .ok .getm) ∧
  (∀ s : State, pending s = true → exec .getm s =
    .next { s with
      out := s.buf
      index := 0
      responses := ⟨true, 0, BitVec.ofNat 16 ((Memory.read s.cfg s.buf 4).toNat + 5)⟩ :: s.responses }) ∧
  (∀ s : State, pending s = false → exec .getm s =
    .next { s with out := noneImage, responses := ⟨false, 0, 5⟩ :: s.responses }) ∧
  ∀ s t : State, exec .getm s = .next t → pending t = false

/-- R105: on completion `INDEX` is `size + 5`, it stays there through every command but `GETM` and `PRST`, and either
of those returns it to 0. -/
def Obligations.CompletionStaysUntilTakenOrDropped : Prop :=
  (∀ (s t : State) (b : Byte) (r : Response), s.Inv → exec (.addb b) s = .next t →
    t.responses = r :: s.responses → r.flag = true →
    t.index.toNat = (Memory.read t.cfg t.buf 4).toNat + 5 ∧ pending t = true) ∧
  (∀ (s t : State) (i : Instr), pending s = true → exec i s = .next t → i ≠ .getm → i ≠ .prst →
    t.index = s.index ∧ pending t = true) ∧
  ∀ s : State, pending s = true →
    ∃ t u, exec .getm s = .next t ∧ t.index = 0 ∧ exec .prst s = .next u ∧ u.index = 0

/-- R27, "a derived one-bit status": `PENDING` as the spec derives it, in 9 bits, and that it is 1 exactly from the `ADDB` that returned frame
complete until the next `GETM` or `PRST`. -/
def Obligations.PendingIsDerivedAndItsLifetime : Prop :=
  (∀ s : State, pending s = true ↔
    5 ≤ s.index.toNat ∧ s.index.setWidth 9 = (Memory.read s.cfg s.buf 4).setWidth 9 + 5#9) ∧
  ∀ (s t : State) (i : Instr), s.Inv → exec i s = .next t →
    (pending t = true ↔
      ((∃ b, i = .addb b) ∧ t.responses.head?.map Response.flag = some true) ∨
      (pending s = true ∧ i ≠ .getm ∧ i ≠ .prst))

/-- R107: `PRST`. -/
def Obligations.PrstResetsTheCounterOnly : Prop :=
  (∀ b : Byte, decode (0x2200 ||| b.setWidth 16) = .ok .prst) ∧
  ∀ s : State, exec .prst s = .next { s with index := 0, responses := ⟨false, 0, 0⟩ :: s.responses } ∧
    pending { s with index := 0, responses := ⟨false, 0, 0⟩ :: s.responses } = false

/-- R109: `STAT`. -/
def Obligations.StatReadsPendingAndIndex : Prop :=
  (∀ b : Byte, decode (0x2300 ||| b.setWidth 16) = .ok .stat) ∧
  ∀ s : State, exec .stat s =
    .next { s with responses := ⟨pending s, 0, s.index.setWidth 16⟩ :: s.responses }

/-- R117 a, b: no sum the block forms wraps. -/
def Obligations.NoSumWraps : Prop :=
  (∀ size : Byte, (totalLength size).toNat = size.toNat + 5) ∧
  (∀ (cfg : Config) (x : Memory), (lengthData cfg x).toNat = (Memory.read cfg x 4).toNat + 5) ∧
  ∀ s : State, s.Inv → pending s = false →
    s.index.toNat ≤ s.cfg.maxCapacity - 1 ∧ (s.index + 1).toNat = s.index.toNat + 1 ∧ (s.index + 1).toNat ≤ 254

/-! ## The message output register (42_message_output.md) -/

/-- R130: `RDB`, inside the array and outside. -/
def Obligations.RdbReadsOneByte : Prop :=
  (∀ b : Byte, decode (0x3000 ||| b.setWidth 16) = .ok (.rdb b)) ∧
  ∀ (s : State) (i : Byte), exec (.rdb i) s =
    .next { s with
      responses :=
        ⟨false, 0, if i.toNat < s.cfg.maxCapacity then (Memory.read s.cfg s.out i.toNat).setWidth 16 else 0x0000⟩
          :: s.responses }

/-- R131: `LEN`, and the range of its value in a state that meets R108. -/
def Obligations.LenReturnsTheTotalLength : Prop :=
  (∀ b : Byte, decode (0x3100 ||| b.setWidth 16) = .ok .len) ∧
  (∀ s : State, exec .len s =
    .next { s with
      responses := ⟨false, 0, ((Memory.read s.cfg s.out 4).setWidth 9 + 5#9).setWidth 16⟩ :: s.responses }) ∧
  ∀ s : State, s.Inv →
    5 ≤ (((Memory.read s.cfg s.out 4).setWidth 9 + 5#9).setWidth 16).toNat ∧
    (((Memory.read s.cfg s.out 4).setWidth 9 + 5#9).setWidth 16).toNat ≤ s.cfg.maxCapacity

/-- R132: `CHK` compares the checksum of the body with the checksum field, and in a state that meets R108 it returns
1. -/
def Obligations.ChkComparesTheChecksums : Prop :=
  (∀ b : Byte, decode (0x3200 ||| b.setWidth 16) = .ok .chk) ∧
  (∀ s : State, (Memory.read s.cfg s.out 4).toNat + 5 ≤ s.cfg.maxCapacity → exec .chk s =
    .next { s with
      responses :=
        ⟨crc16 ((List.range (Memory.read s.cfg s.out 4).toNat).map fun k => Memory.read s.cfg s.out (5 + k)) ==
            le16 (Memory.read s.cfg s.out 2) (Memory.read s.cfg s.out 3), 0, 0⟩ :: s.responses }) ∧
  ∀ s : State, s.Inv → exec .chk s = .next { s with responses := ⟨true, 0, 0⟩ :: s.responses }

/-! ## Frames and independence, over all commands -/

/-- R22 to R25: which command may write which state element; every other element stays, and each command adds exactly
one response. -/
def Obligations.OnlyTheNamedCommandsWrite : Prop :=
  ∀ (i : Instr) (s t : State), exec i s = .next t →
    t.cfg = s.cfg ∧ t.inputs = s.inputs ∧ (∃ r, t.responses = r :: s.responses) ∧
    (i ≠ .crcclr → (∀ b, i ≠ .crcupd b) → t.crcAcc = s.crcAcc) ∧
    ((∀ b, i ≠ .addb b) → i ≠ .getm → i ≠ .prst → t.index = s.index) ∧
    ((∀ b, i ≠ .addb b) → t.buf = s.buf) ∧
    (i ≠ .getm → t.out = s.out)

/-- R48: the reading commands change no state, and repeated they give the same response. -/
def Obligations.ReadsChangeNothingAndRepeat : Prop :=
  ∀ (i : Instr) (s t : State),
    (i = .crcrd ∨ (∃ b, i = .tblrd b) ∨ i = .stat ∨ (∃ b, i = .rdb b) ∨ i = .len ∨ i = .chk) →
    exec i s = .next t →
    ∃ r, t = { s with responses := r :: s.responses } ∧
      exec i t = .next { s with responses := r :: r :: s.responses }

/-- R22, R106: no command but the checksum engine's own reads or writes `CRC_ACC`; with another value there, each does
the same and keeps that value. -/
def Obligations.ParserAndOutputIgnoreTheAccumulator : Prop :=
  ∀ (i : Instr) (s t : State) (c : Half), i ≠ .crcclr → (∀ b, i ≠ .crcupd b) → i ≠ .crcrd →
    exec i s = .next t → t.crcAcc = s.crcAcc ∧ exec i { s with crcAcc := c } = .next { t with crcAcc := c }

/-- R25, R196: only `RDB`, `LEN` and `CHK` read `OUT`; with another content there, every other command but `GETM` does
the same and keeps that content, and `GETM` does the same. -/
def Obligations.OnlyTheOutputCommandsReadOut : Prop :=
  ∀ (i : Instr) (s t : State) (m : Memory), (∀ b, i ≠ .rdb b) → i ≠ .len → i ≠ .chk →
    exec i s = .next t →
    exec i { s with out := m } = .next (if i = .getm then t else { t with out := m })

/-- 20_memory.md R40, R46, in the model's form (log entry 6): two contents in canonical form that read alike at every
offset of the array are equal. -/
def Obligations.EqualReadsMeanEqualContents : Prop :=
  ∀ (cfg : Config) (x y : Memory), Memory.wf cfg x → Memory.wf cfg y →
    (∀ k, k < cfg.maxCapacity → Memory.read cfg x k = Memory.read cfg y k) → x = y

/-! ## The invariant of R108 -/

/-- R108, R191: the state after reset meets R108, for all legal parameters and whatever the host will do; the model's
reset state among them. -/
def Obligations.InvariantHoldsAfterReset : Prop :=
  (∀ (cfg : Config) (inputs : List HostInput), cfg.Legal → State.Inv { State.resetWith cfg with inputs := inputs }) ∧
  State.Inv State.reset

/-- R108: every step from a state that meets R108 leads to one that meets it. `ADDB` on a pending frame has no next
state. -/
def Obligations.EveryStepKeepsTheInvariant : Prop :=
  ∀ s t : State, s.Inv → step s = .next t → t.Inv

/-- R108, which the spec derives from R102, R104, R107 and R34, as the rule states it: at every command boundary of every
run from reset, clauses a to g. The runs are those
of any host, on an instance with any legal parameters; an `ADDB` on a pending frame ends a run. -/
def Obligations.EveryReachedStateMeetsRule108 : Prop :=
  ∀ (cfg : Config) (inputs : List HostInput) (n : Nat) (t : State), cfg.Legal →
    run n { State.resetWith cfg with inputs := inputs } = .next t →
    t.cfg = cfg ∧
    t.index.toNat ≤ cfg.maxCapacity ∧
    (pending t = false → t.index.toNat ≤ cfg.maxCapacity - 1) ∧
    (1 ≤ t.index.toNat → Memory.read cfg t.buf 0 = lo8 cfg.header) ∧
    (2 ≤ t.index.toNat → Memory.read cfg t.buf 1 = hi8 cfg.header) ∧
    (5 ≤ t.index.toNat → (Memory.read cfg t.buf 4).toNat + 5 ≤ cfg.maxCapacity ∧
      t.index.toNat ≤ (Memory.read cfg t.buf 4).toNat + 5) ∧
    (5 ≤ t.index.toNat → t.index.toNat = (Memory.read cfg t.buf 4).toNat + 5 →
      crc16 (frameBody cfg t.buf) = frameChecksum cfg t.buf) ∧
    (t.out = noneImage ∨
      ∃ m u, m ≤ n ∧ run m { State.resetWith cfg with inputs := inputs } = .next u ∧ pending u = true ∧ t.out = u.buf) ∧
    frameHeader cfg t.out = cfg.header ∧
    (Memory.read cfg t.out 4).toNat + 5 ≤ cfg.maxCapacity ∧
    crc16 (frameBody cfg t.out) = frameChecksum cfg t.out

/-! ## Whole frames (41_stream_parser.md R116) -/

/-- R116 a: feeding a frame's wire bytes from the search state and then `GETM`, through the command port: every byte
but the last returns false, the last returns complete, `GETM` takes the frame, `OUT` holds its bytes, and the checksum
accumulator is untouched. -/
def Obligations.WholeFrameRoundTrip : Prop :=
  ∀ (s : State) (body : List Byte) (rest : List HostInput),
    s.Inv → s.index = 0 → body.length + 5 ≤ s.cfg.maxCapacity →
    s.inputs = issued ((wireFrame s.cfg body).map .addb ++ [.getm]) ++ rest →
    ∃ t, run (body.length + 6) s = .next t ∧
      t.inputs = rest ∧ t.index = 0 ∧ t.crcAcc = s.crcAcc ∧
      t.responses = ⟨true, 0, BitVec.ofNat 16 (body.length + 5)⟩ :: ⟨true, 1, 0⟩ ::
        (List.replicate (body.length + 4) ⟨false, 0, 0⟩ ++ s.responses) ∧
      ∀ k, k < body.length + 5 → some (Memory.read t.cfg t.out k) = (wireFrame s.cfg body)[k]?

/-- R116 b: with one byte of the body changed, in one bit or in more, the last byte returns false with cause 5, and no
frame is pending. -/
def Obligations.CorruptedBodyIsNeverEmitted : Prop :=
  ∀ (s : State) (x y : List Byte) (b e : Byte) (rest : List HostInput),
    s.Inv → s.index = 0 → e ≠ 0 → x.length + y.length + 6 ≤ s.cfg.maxCapacity →
    s.inputs =
      issued (((wireFrame s.cfg (x ++ b :: y)).take 5 ++ (x ++ (b ^^^ e) :: y)).map .addb) ++ rest →
    ∃ t, run (x.length + y.length + 6) s = .next t ∧
      t.inputs = rest ∧ t.index = 0 ∧ pending t = false ∧
      t.responses = ⟨false, 5, 0⟩ :: (List.replicate (x.length + y.length + 5) ⟨false, 0, 0⟩ ++ s.responses)

/-- R116 c: garbage without the low header byte, then a frame, then `GETM`: the garbage is refused byte by byte and
the frame is taken whole. -/
def Obligations.FrameAfterGarbageIsTaken : Prop :=
  ∀ (s : State) (garbage body : List Byte) (rest : List HostInput),
    s.Inv → s.index = 0 → body.length + 5 ≤ s.cfg.maxCapacity → (∀ g ∈ garbage, g ≠ lo8 s.cfg.header) →
    s.inputs = issued ((garbage ++ wireFrame s.cfg body).map .addb ++ [.getm]) ++ rest →
    ∃ t, run (garbage.length + body.length + 6) s = .next t ∧
      t.inputs = rest ∧ t.index = 0 ∧
      t.responses = ⟨true, 0, BitVec.ofNat 16 (body.length + 5)⟩ :: ⟨true, 1, 0⟩ ::
        (List.replicate (body.length + 4) ⟨false, 0, 0⟩ ++
          (List.replicate garbage.length ⟨false, 2, 0⟩ ++ s.responses)) ∧
      ∀ k, k < body.length + 5 → some (Memory.read t.cfg t.out k) = (wireFrame s.cfg body)[k]?
end

