-- ==== Sys2Proof/Laws/Assembler.lean ====
section
/-! SUPPORT. The numbers of assembler text: reading a digit or an operand that was written gives its value back. -/

namespace Sys2Proof.Machine

/-- A hexadecimal digit reads as the value it was written for. -/
theorem hexValue_hexDigit (n : Nat) (h : n < 16) : hexValue (hexDigit n) = some n := by
  revert n
  decide

/-- A byte operand reads as the byte it was written for (30_encoding.md R70). -/
@[simp] theorem parseNumber_renderByte (b : Byte) : parseNumber (renderByte b) = some b.toNat := by
  have low : b.toNat % 16 < 16 := Nat.mod_lt _ (by decide)
  have high : b.toNat / 16 < 16 := Nat.div_lt_of_lt_mul b.isLt
  simp only [renderByte, parseNumber, hexValue_hexDigit _ high, hexValue_hexDigit _ low]
  exact congrArg some (Nat.div_add_mod b.toNat 16)

end Sys2Proof.Machine
end

