-- ==== Sys2Proof/Laws/State.lean ====
section
/-! SUPPORT. One lemma per field per update of State, each true by rfl, so that no proof unfolds a record update. -/

namespace Sys2Proof.Machine

@[simp] theorem answer_cfg (r : Response) (s : State) : (answer r s).cfg = s.cfg := rfl
@[simp] theorem answer_crcAcc (r : Response) (s : State) : (answer r s).crcAcc = s.crcAcc := rfl
@[simp] theorem answer_index (r : Response) (s : State) : (answer r s).index = s.index := rfl
@[simp] theorem answer_buf (r : Response) (s : State) : (answer r s).buf = s.buf := rfl
@[simp] theorem answer_out (r : Response) (s : State) : (answer r s).out = s.out := rfl
@[simp] theorem answer_inputs (r : Response) (s : State) : (answer r s).inputs = s.inputs := rfl
@[simp] theorem answer_responses (r : Response) (s : State) : (answer r s).responses = r :: s.responses := rfl

@[simp] theorem setCrc_cfg (c : Half) (s : State) : (setCrc c s).cfg = s.cfg := rfl
@[simp] theorem setCrc_crcAcc (c : Half) (s : State) : (setCrc c s).crcAcc = c := rfl
@[simp] theorem setCrc_index (c : Half) (s : State) : (setCrc c s).index = s.index := rfl
@[simp] theorem setCrc_buf (c : Half) (s : State) : (setCrc c s).buf = s.buf := rfl
@[simp] theorem setCrc_out (c : Half) (s : State) : (setCrc c s).out = s.out := rfl
@[simp] theorem setCrc_inputs (c : Half) (s : State) : (setCrc c s).inputs = s.inputs := rfl
@[simp] theorem setCrc_responses (c : Half) (s : State) : (setCrc c s).responses = s.responses := rfl

@[simp] theorem setIndex_cfg (i : Byte) (s : State) : (setIndex i s).cfg = s.cfg := rfl
@[simp] theorem setIndex_crcAcc (i : Byte) (s : State) : (setIndex i s).crcAcc = s.crcAcc := rfl
@[simp] theorem setIndex_index (i : Byte) (s : State) : (setIndex i s).index = i := rfl
@[simp] theorem setIndex_buf (i : Byte) (s : State) : (setIndex i s).buf = s.buf := rfl
@[simp] theorem setIndex_out (i : Byte) (s : State) : (setIndex i s).out = s.out := rfl
@[simp] theorem setIndex_inputs (i : Byte) (s : State) : (setIndex i s).inputs = s.inputs := rfl
@[simp] theorem setIndex_responses (i : Byte) (s : State) : (setIndex i s).responses = s.responses := rfl

@[simp] theorem setOut_cfg (m : Memory) (s : State) : (setOut m s).cfg = s.cfg := rfl
@[simp] theorem setOut_crcAcc (m : Memory) (s : State) : (setOut m s).crcAcc = s.crcAcc := rfl
@[simp] theorem setOut_index (m : Memory) (s : State) : (setOut m s).index = s.index := rfl
@[simp] theorem setOut_buf (m : Memory) (s : State) : (setOut m s).buf = s.buf := rfl
@[simp] theorem setOut_out (m : Memory) (s : State) : (setOut m s).out = m := rfl
@[simp] theorem setOut_inputs (m : Memory) (s : State) : (setOut m s).inputs = s.inputs := rfl
@[simp] theorem setOut_responses (m : Memory) (s : State) : (setOut m s).responses = s.responses := rfl

@[simp] theorem storeByte_cfg (b : Byte) (s : State) : (storeByte b s).cfg = s.cfg := rfl
@[simp] theorem storeByte_crcAcc (b : Byte) (s : State) : (storeByte b s).crcAcc = s.crcAcc := rfl
@[simp] theorem storeByte_index (b : Byte) (s : State) : (storeByte b s).index = s.index + 1 := rfl
@[simp] theorem storeByte_buf (b : Byte) (s : State) : (storeByte b s).buf = Memory.write s.cfg s.buf s.index.toNat b := rfl
@[simp] theorem storeByte_out (b : Byte) (s : State) : (storeByte b s).out = s.out := rfl
@[simp] theorem storeByte_inputs (b : Byte) (s : State) : (storeByte b s).inputs = s.inputs := rfl
@[simp] theorem storeByte_responses (b : Byte) (s : State) : (storeByte b s).responses = s.responses := rfl

@[simp] theorem resync_cfg (s : State) : (resync s).cfg = s.cfg := rfl
@[simp] theorem resync_crcAcc (s : State) : (resync s).crcAcc = s.crcAcc := rfl
@[simp] theorem resync_index (s : State) : (resync s).index = 0 := rfl
@[simp] theorem resync_buf (s : State) : (resync s).buf = s.buf := rfl
@[simp] theorem resync_out (s : State) : (resync s).out = s.out := rfl
@[simp] theorem resync_inputs (s : State) : (resync s).inputs = s.inputs := rfl
@[simp] theorem resync_responses (s : State) : (resync s).responses = s.responses := rfl

@[simp] theorem applyReset_cfg (s : State) : (applyReset s).cfg = s.cfg := rfl
@[simp] theorem applyReset_crcAcc (s : State) : (applyReset s).crcAcc = 0 := rfl
@[simp] theorem applyReset_index (s : State) : (applyReset s).index = 0 := rfl
@[simp] theorem applyReset_buf (s : State) : (applyReset s).buf = [] := rfl
@[simp] theorem applyReset_out (s : State) : (applyReset s).out = [] := rfl
@[simp] theorem applyReset_inputs (s : State) : (applyReset s).inputs = s.inputs := rfl
@[simp] theorem applyReset_responses (s : State) : (applyReset s).responses = s.responses := rfl

@[simp] theorem resetWith_cfg (cfg : Config) : (State.resetWith cfg).cfg = cfg := rfl
@[simp] theorem resetWith_crcAcc (cfg : Config) : (State.resetWith cfg).crcAcc = 0 := rfl
@[simp] theorem resetWith_index (cfg : Config) : (State.resetWith cfg).index = 0 := rfl
@[simp] theorem resetWith_buf (cfg : Config) : (State.resetWith cfg).buf = [] := rfl
@[simp] theorem resetWith_out (cfg : Config) : (State.resetWith cfg).out = [] := rfl
@[simp] theorem resetWith_inputs (cfg : Config) : (State.resetWith cfg).inputs = [] := rfl
@[simp] theorem resetWith_responses (cfg : Config) : (State.resetWith cfg).responses = [] := rfl

/-- The end of an arm changes `INDEX` only in a resync, and adds the response. -/
theorem endArm_eq (c : Cause) (s : State) :
    endArm c s =
      { s with
        index := if c.isResync then 0 else s.index
        responses := { flag := c.flag, cause := c.code } :: s.responses } := by
  cases c <;> rfl

@[simp] theorem endArm_cfg (c : Cause) (s : State) : (endArm c s).cfg = s.cfg := by
  rw [endArm_eq]

@[simp] theorem endArm_crcAcc (c : Cause) (s : State) : (endArm c s).crcAcc = s.crcAcc := by
  rw [endArm_eq]

@[simp] theorem endArm_index (c : Cause) (s : State) : (endArm c s).index = if c.isResync then 0 else s.index := by
  rw [endArm_eq]

@[simp] theorem endArm_buf (c : Cause) (s : State) : (endArm c s).buf = s.buf := by
  rw [endArm_eq]

@[simp] theorem endArm_out (c : Cause) (s : State) : (endArm c s).out = s.out := by
  rw [endArm_eq]

@[simp] theorem endArm_inputs (c : Cause) (s : State) : (endArm c s).inputs = s.inputs := by
  rw [endArm_eq]

@[simp] theorem endArm_responses (c : Cause) (s : State) : (endArm c s).responses = { flag := c.flag, cause := c.code } :: s.responses := by
  rw [endArm_eq]

/-- Taking the host's next input from the port. -/
@[simp] theorem takeInput_nil (s : State) (h : s.inputs = []) : takeInput s = none := by
  simp [takeInput, h]

@[simp] theorem takeInput_cons (s : State) (i : HostInput) (rest : List HostInput) (h : s.inputs = i :: rest) :
    takeInput s = some (i, { s with inputs := rest }) := by
  simp [takeInput, h]

/-! ## Steps and runs -/

/-- All that a step can do when it answers a next state. -/
theorem step_next (s t : State) (h : step s = .next t) :
    (s.inputs = [] ∧ t = s) ∨
    (∃ w rest i, s.inputs = .command w :: rest ∧ decode w = .ok i ∧ exec i { s with inputs := rest } = .next t) ∨
    ∃ rest, s.inputs = .reset :: rest ∧ t = applyReset { s with inputs := rest } := by
  unfold step takeInput at h
  cases hi : s.inputs with
  | nil =>
    simp only [hi, Host.Outcome.next.injEq] at h
    exact .inl ⟨rfl, h.symm⟩
  | cons x rest =>
    simp only [hi] at h
    cases x with
    | command w =>
      simp only [runWord] at h
      split at h
      · next i hd => exact .inr (.inl ⟨w, rest, i, rfl, hd, h⟩)
      · cases h
    | reset => exact .inr (.inr ⟨rest, rfl, by simpa using h.symm⟩)

@[simp] theorem run_zero (s : State) : run 0 s = .next s := rfl

/-- A run goes on from the state its first step answers. -/
theorem run_succ (n : Nat) (s t : State) (h : step s = .next t) : run (n + 1) s = run n t := by
  have hc : core.step s = .next t := h
  simp only [run, Host.Core.run, hc]
  rfl

/-- A run that answers a next state has a first step that does. -/
theorem run_succ_next (n : Nat) (s u : State) (h : run (n + 1) s = .next u) :
    ∃ t, step s = .next t ∧ run n t = .next u := by
  simp only [run, Host.Core.run] at h
  split at h
  · next t ht => exact ⟨t, ht, h⟩
  · cases h
  · cases h

/-- A run of `m + n` steps is a run of `m` and then one of `n`. -/
theorem run_add (m n : Nat) (s t : State) (h : run m s = .next t) : run (m + n) s = run n t := by
  induction m generalizing s with
  | zero => cases h; rw [Nat.zero_add]
  | succ m ih =>
    obtain ⟨u, hu, hr⟩ := run_succ_next m s t h
    rw [Nat.add_right_comm, run_succ (m + n) s u hu, ih u hr]

end Sys2Proof.Machine
end

