-- ==== Sys2Proof/Laws/Crc.lean ====
section
/-! SUPPORT. The laws of the checksum: the conditional shift is linear and loses nothing, so the byte step is the eight
shifts of the word with the byte folded into its low half. -/

namespace Sys2Proof.Machine

theorem xor_pair (a b c d : Half) : (a ^^^ b) ^^^ (c ^^^ d) = (a ^^^ c) ^^^ (b ^^^ d) := by
  rw [BitVec.xor_assoc, BitVec.xor_assoc, ← BitVec.xor_assoc b, BitVec.xor_comm b c, BitVec.xor_assoc c]

/-- The conditional shift as one expression. -/
theorem shiftStep_eq (c : Half) : shiftStep c = (c >>> 1) ^^^ (if c.getLsbD 0 then poly else 0) := by
  unfold shiftStep
  split <;> simp

theorem shiftStep_xor (a b : Half) : shiftStep (a ^^^ b) = shiftStep a ^^^ shiftStep b := by
  rw [shiftStep_eq, shiftStep_eq, shiftStep_eq, xor_pair, BitVec.ushiftRight_xor_distrib, BitVec.getLsbD_xor]
  congr 1
  cases a.getLsbD 0 <;> cases b.getLsbD 0 <;> simp

theorem shiftByte_xor (a b : Half) : shiftByte (a ^^^ b) = shiftByte a ^^^ shiftByte b := by
  simp only [shiftByte, shiftStep_xor]

@[simp] theorem shiftByte_zero : shiftByte 0 = 0 := by decide

/-- The conditional shift loses nothing: the top bit of the result says whether the polynomial was folded in. -/
theorem shiftStep_eq_zero (c : Half) (h : shiftStep c = 0) : c = 0 := by
  have top := congrArg (fun x => BitVec.getLsbD x 15) h
  rw [shiftStep_eq] at h top
  cases h0 : c.getLsbD 0 with
  | true => simp [h0, poly] at top
  | false =>
    simp only [h0, Bool.false_eq_true, if_false] at h
    apply BitVec.eq_of_getLsbD_eq
    intro i hi
    cases i with
    | zero => simpa using h0
    | succ j =>
      have := congrArg (fun x => BitVec.getLsbD x j) h
      simpa [Nat.add_comm] using this

theorem shiftByte_eq_zero (c : Half) (h : shiftByte c = 0) : c = 0 := by
  unfold shiftByte at h
  iterate 8 replace h := shiftStep_eq_zero _ h
  exact h

/-- A word is its two bytes. -/
theorem half_split (c : Half) : c = (hi8 c ++ (0 : Byte)) ^^^ (lo8 c).setWidth 16 := by
  apply BitVec.eq_of_getLsbD_eq
  intro i hi
  simp only [hi8, lo8, BitVec.getLsbD_xor, BitVec.getLsbD_append, BitVec.getLsbD_setWidth, BitVec.getLsbD_extractLsb']
  by_cases h : i < 8
  · simp [h, hi]
  · have : 8 + (i - 8) = i := by omega
    simp [h, hi, this]
    omega

/-- The bits of a half assembled from two bytes. -/
theorem getLsbD_le16 (lo hi : Byte) (i : Nat) :
    (le16 lo hi).getLsbD i = if i < 8 then lo.getLsbD i else hi.getLsbD (i - 8) :=
  BitVec.getLsbD_append

@[simp] theorem lo8_le16 (lo hi : Byte) : lo8 (le16 lo hi) = lo := by
  apply BitVec.eq_of_getLsbD_eq
  intro i h
  simp only [lo8, BitVec.getLsbD_extractLsb', getLsbD_le16]
  simp [h]

@[simp] theorem hi8_le16 (lo hi : Byte) : hi8 (le16 lo hi) = hi := by
  apply BitVec.eq_of_getLsbD_eq
  intro i h
  simp only [hi8, BitVec.getLsbD_extractLsb', getLsbD_le16]
  simp [h]

@[simp] theorem le16_lo8_hi8 (c : Half) : le16 (lo8 c) (hi8 c) = c := by
  apply BitVec.eq_of_getLsbD_eq
  intro i hi
  simp only [hi8, lo8, getLsbD_le16, BitVec.getLsbD_extractLsb']
  by_cases h : i < 8
  · simp [h]
  · have : 8 + (i - 8) = i := by omega
    simp [h, this]
    omega

theorem shiftByte_high (h : Byte) : shiftByte (h ++ (0 : Byte)) = h.setWidth 16 := by
  revert h
  decide +kernel

theorem ushiftRight_eight (c : Half) : c >>> 8 = (hi8 c).setWidth 16 := by
  apply BitVec.eq_of_getLsbD_eq
  intro i hi
  simp only [hi8, BitVec.getLsbD_ushiftRight, BitVec.getLsbD_setWidth, BitVec.getLsbD_extractLsb']
  by_cases h : i < 8
  · simp [h, hi]
  · have : c.getLsbD (8 + i) = false := BitVec.getLsbD_of_ge _ _ (by omega)
    simp [h, this]

/-- The byte step is eight conditional shifts of the word with the byte folded in. -/
theorem crcStep_eq_shiftByte (c : Half) (b : Byte) : crcStep c b = shiftByte (c ^^^ b.setWidth 16) := by
  have hi : hi8 (c ^^^ b.setWidth 16) = hi8 c := by
    apply BitVec.eq_of_getLsbD_eq
    intro i h
    simp [hi8]
  rw [half_split (c ^^^ b.setWidth 16), shiftByte_xor, shiftByte_high, hi, crcStep, table, ushiftRight_eight]

/-- The byte step is linear in the running value and the byte together. -/
theorem crcStep_xor (c c' : Half) (b b' : Byte) :
    crcStep (c ^^^ c') (b ^^^ b') = crcStep c b ^^^ crcStep c' b' := by
  rw [crcStep_eq_shiftByte, crcStep_eq_shiftByte, crcStep_eq_shiftByte, ← shiftByte_xor, xor_pair,
    BitVec.setWidth_xor]

@[simp] theorem crc16_nil : crc16 [] = 0 := rfl

theorem crc16_append (x y : List Byte) : crc16 (x ++ y) = y.foldl crcStep (crc16 x) := by
  simp [crc16, List.foldl_append]

theorem crc16_concat (x : List Byte) (b : Byte) : crc16 (x ++ [b]) = crcStep (crc16 x) b := by
  simp [crc16_append]

end Sys2Proof.Machine
end

