-- ==== Sys2Proof/Laws/Decode.lean ====
section
/-! SUPPORT. The two fields of a command word and the word made of two fields (30_encoding.md R61), and the decoder as a
condition on the opcode. -/

namespace Sys2Proof

/-- The bits of a word made of two bytes. -/
theorem getLsbD_fields (op imm : Byte) (j : Nat) :
    (commandWord op imm).getLsbD j = if j < 8 then imm.getLsbD j else op.getLsbD (j - 8) :=
  BitVec.getLsbD_append

@[simp] theorem opField_commandWord (op imm : Byte) : opField (commandWord op imm) = op := by
  apply BitVec.eq_of_getLsbD_eq
  intro j h
  simp only [opField, BitVec.getLsbD_extractLsb', getLsbD_fields]
  simp [h]

@[simp] theorem imm8Field_commandWord (op imm : Byte) : imm8Field (commandWord op imm) = imm := by
  apply BitVec.eq_of_getLsbD_eq
  intro j h
  simp only [imm8Field, BitVec.getLsbD_extractLsb', getLsbD_fields]
  simp [h]

/-- A word is its two fields. -/
theorem commandWord_fields (w : Half) : commandWord (opField w) (imm8Field w) = w := by
  apply BitVec.eq_of_getLsbD_eq
  intro j hj
  rw [getLsbD_fields]
  simp only [opField, imm8Field, BitVec.getLsbD_extractLsb']
  by_cases h : j < 8
  · simp [h]
  · have : 8 + (j - 8) = j := by omega
    simp [h, this]
    omega

/-- The mask of a format `N` command keeps the opcode and clears the operand byte (R69). -/
theorem commandWord_mask (op imm : Byte) : commandWord op imm &&& 0xFF00 = commandWord op 0 := by
  apply BitVec.eq_of_getLsbD_eq
  intro j hj
  have mask : (0xFF00 : Half).getLsbD j = decide (8 ≤ j) := by
    revert j
    decide
  rw [BitVec.getLsbD_and, mask, getLsbD_fields, getLsbD_fields]
  by_cases h : j < 8
  · simp [h]
  · simp [h]
    omega

/-- A word written as an opcode and an operand byte in the low bits is that pair of fields. -/
theorem commandWord_or (op imm : Byte) : commandWord op 0 ||| imm.setWidth 16 = commandWord op imm := by
  apply BitVec.eq_of_getLsbD_eq
  intro j hj
  rw [BitVec.getLsbD_or, getLsbD_fields, getLsbD_fields, BitVec.getLsbD_setWidth]
  by_cases h : j < 8
  · simp [h, hj]
  · have : imm.getLsbD j = false := BitVec.getLsbD_of_ge _ _ (by omega)
    simp [h, this]

/-- The decoder on a word made of two fields. -/
theorem decode_commandWord (op imm : Byte) : decode (commandWord op imm) =
    match op.toNat with
    | 0x10 => .ok .crcclr
    | 0x11 => .ok (.crcupd imm)
    | 0x12 => .ok .crcrd
    | 0x13 => .ok (.tblrd imm)
    | 0x20 => .ok (.addb imm)
    | 0x21 => .ok .getm
    | 0x22 => .ok .prst
    | 0x23 => .ok .stat
    | 0x30 => .ok (.rdb imm)
    | 0x31 => .ok .len
    | 0x32 => .ok .chk
    | _ => .error (.reservedOpcode op) := by
  unfold decode
  rw [opField_commandWord, imm8Field_commandWord] <;> rfl

/-- What a word that decodes says of its fields. -/
theorem decode_ok (op imm : Byte) (i : Instr) (h : decode (commandWord op imm) = .ok i) :
    op = i.opcode ∧ (i.format = .I → imm = i.operandByte) := by
  rw [decode_commandWord] at h
  split at h <;> cases h <;> exact ⟨BitVec.eq_of_toNat_eq ‹_›, by simp [Instr.format, Instr.operandByte]⟩

end Sys2Proof
end

