-- ==== Sys2Proof/Laws/Memory.lean ====
section
/-! SUPPORT. The laws of the two byte arrays: a read after a write, and the canonical form that every write keeps. -/

namespace Sys2Proof.Machine

@[simp] theorem read_nil (cfg : Config) (k : Nat) : Memory.read cfg [] k = noneByte cfg k := rfl

theorem read_cons (cfg : Config) (a : Nat) (v : Byte) (m : Memory) (k : Nat) :
    Memory.read cfg ((a, v) :: m) k = if k = a then v else Memory.read cfg m k := rfl

/-- An offset that no entry lists reads as the image `NONE`. -/
theorem read_eq_noneByte (cfg : Config) (m : Memory) (k : Nat) (h : ∀ c ∈ m, c.1 ≠ k) :
    Memory.read cfg m k = noneByte cfg k := by
  induction m with
  | nil => rfl
  | cons c m ih =>
    obtain ⟨a, v⟩ := c
    simp only [List.mem_cons, forall_eq_or_imp] at h
    rw [read_cons, if_neg (fun e => h.1 e.symm), ih h.2]

theorem wf_nil (cfg : Config) : Memory.wf cfg [] := by simp [Memory.wf]

theorem wf_noneImage (cfg : Config) : Memory.wf cfg noneImage := wf_nil cfg

/-- What the canonical form says of the first entry and of the rest. -/
theorem wf_cons (cfg : Config) (a : Nat) (v : Byte) (m : Memory) :
    Memory.wf cfg ((a, v) :: m) ↔
      (∀ c ∈ m, a < c.1) ∧ a < cfg.maxCapacity ∧ v ≠ noneByte cfg a ∧ Memory.wf cfg m := by
  simp only [Memory.wf, List.map_cons, List.pairwise_cons, List.mem_map, List.mem_cons, forall_eq_or_imp,
    forall_exists_index, and_imp, forall_apply_eq_imp_iff₂]
  tauto

/-- The offsets a write lists are those listed before and the one written. -/
theorem mem_write (cfg : Config) (m : Memory) (k : Nat) (b : Byte) (c : Host.Cell)
    (h : c ∈ Memory.write cfg m k b) : c = (k, b) ∨ c ∈ m := by
  induction m with
  | nil =>
    simp only [Memory.write] at h
    split at h <;> simp_all
  | cons d m ih =>
    obtain ⟨a, v⟩ := d
    simp only [Memory.write] at h
    split at h
    · split at h <;> simp_all
    · split at h
      · split at h <;> simp_all
        tauto
      · simp only [List.mem_cons] at h ⊢
        tauto

/-- Every write inside the array keeps the canonical form. -/
theorem wf_write (cfg : Config) (m : Memory) (k : Nat) (b : Byte) (hk : k < cfg.maxCapacity)
    (h : Memory.wf cfg m) : Memory.wf cfg (Memory.write cfg m k b) := by
  induction m with
  | nil =>
    simp only [Memory.write]
    split
    · exact wf_nil cfg
    · rw [wf_cons]
      exact ⟨by simp, hk, by assumption, wf_nil cfg⟩
  | cons c m ih =>
    obtain ⟨a, v⟩ := c
    obtain ⟨hlt, ha, hv, hm⟩ := (wf_cons cfg a v m).1 h
    simp only [Memory.write]
    split
    · split
      · exact h
      · refine (wf_cons ..).2 ⟨?_, hk, by assumption, h⟩
        intro c hc
        rcases List.mem_cons.1 hc with rfl | hc
        · assumption
        · exact lt_trans (by assumption) (hlt c hc)
    · split
      · subst_vars
        split
        · exact hm
        · exact (wf_cons ..).2 ⟨hlt, ha, by assumption, hm⟩
      · refine (wf_cons ..).2 ⟨?_, ha, hv, ih hm⟩
        intro c hc
        rcases mem_write cfg m k b c hc with rfl | hc
        · simp only; omega
        · exact hlt c hc

/-- What a read gives after a write, in canonical form. -/
theorem read_write (cfg : Config) (m : Memory) (k : Nat) (b : Byte) (j : Nat) (h : Memory.wf cfg m) :
    Memory.read cfg (Memory.write cfg m k b) j = if j = k then b else Memory.read cfg m j := by
  induction m with
  | nil =>
    simp only [Memory.write]
    split
    · split <;> simp_all
    · rfl
  | cons c m ih =>
    obtain ⟨a, v⟩ := c
    obtain ⟨hlt, -, -, hm⟩ := (wf_cons cfg a v m).1 h
    simp only [Memory.write]
    split
    · split
      · next hka hb =>
        by_cases hj : j = k
        · rw [if_pos hj, hj, hb, read_eq_noneByte]
          intro c hc
          rcases List.mem_cons.1 hc with rfl | hc
          · simp only; omega
          · have := hlt c hc; omega
        · rw [if_neg hj]
      · rfl
    · split
      · next hka hk =>
        subst hk
        split
        · next hb =>
          by_cases hj : j = k
          · rw [if_pos hj, hj, hb, read_eq_noneByte]
            intro c hc
            have := hlt c hc; omega
          · rw [if_neg hj, read_cons, if_neg hj]
        · rw [read_cons, read_cons]
          split <;> rfl
      · next hka hk =>
        rw [read_cons, read_cons, ih hm]
        by_cases hj : j = a
        · rw [if_pos hj, if_pos hj, if_neg (by omega)]
        · rw [if_neg hj, if_neg hj]

theorem read_write_same (cfg : Config) (m : Memory) (k : Nat) (b : Byte) (h : Memory.wf cfg m) :
    Memory.read cfg (Memory.write cfg m k b) k = b := by
  rw [read_write cfg m k b k h, if_pos rfl]

theorem read_write_other (cfg : Config) (m : Memory) (k : Nat) (b : Byte) (j : Nat) (h : Memory.wf cfg m)
    (hj : j ≠ k) : Memory.read cfg (Memory.write cfg m k b) j = Memory.read cfg m j := by
  rw [read_write cfg m k b j h, if_neg hj]

/-- A frame's fields depend on the bytes of the frame only. -/
theorem frameBody_congr (cfg : Config) (x y : Memory) (hs : frameSize cfg x = frameSize cfg y)
    (h : ∀ k, k < (frameSize cfg y).toNat → Memory.read cfg x (5 + k) = Memory.read cfg y (5 + k)) :
    frameBody cfg x = frameBody cfg y := by
  simp only [frameBody, hs, headerBlockSize]
  exact List.map_congr_left fun k hk => h k (List.mem_range.1 hk)

end Sys2Proof.Machine
end

