-- ==== Sys2Proof/Laws/Exec.lean ====
section
/-! SUPPORT. The status and length tests as numbers, and one lemma per command that says all it can do when it answers a
next state. -/

namespace Sys2Proof.Machine

/-- The 9-bit sum is the sum of numbers (41_stream_parser.md R117 b). -/
@[simp] theorem totalLength_toNat (size : Byte) : (totalLength size).toNat = size.toNat + 5 := by
  have := size.isLt
  have five : (5 : BitVec 9).toNat = 5 := rfl
  simp only [totalLength, BitVec.toNat_add, BitVec.toNat_setWidth, five]
  omega

theorem lengthData_eq (cfg : Config) (x : Memory) :
    lengthData cfg x = BitVec.ofNat 16 ((frameSize cfg x).toNat + 5) := by
  apply BitVec.eq_of_toNat_eq
  simp [lengthData]

/-- `PENDING` as a condition on numbers (10_state.md R27). -/
theorem pending_iff (s : State) :
    pending s = true ↔ 5 ≤ s.index.toNat ∧ s.index.toNat = (frameSize s.cfg s.buf).toNat + 5 := by
  have hi := s.index.isLt
  simp only [pending, Bool.and_eq_true, decide_eq_true_eq, beq_iff_eq, ← BitVec.toNat_inj, BitVec.toNat_setWidth,
    totalLength_toNat]
  rw [Nat.mod_eq_of_lt (by omega), headerBlockSize]

theorem frameFits_iff (cfg : Config) (x : Memory) :
    frameFits cfg x = true ↔ (frameSize cfg x).toNat + 5 ≤ cfg.maxCapacity := by
  simp [frameFits]

theorem frameVerified_iff (cfg : Config) (x : Memory) :
    frameVerified cfg x = true ↔ crc16 (frameBody cfg x) = frameChecksum cfg x := by
  simp [frameVerified]

/-- A half read from two bytes equals a half when both bytes agree. -/
theorem le16_eq_iff (lo hi : Byte) (h : Half) : le16 lo hi = h ↔ lo = lo8 h ∧ hi = hi8 h := by
  constructor
  · rintro rfl
    simp
  · rintro ⟨rfl, rfl⟩
    simp

/-! ## One lemma per command -/

@[simp] theorem exec_crcclr (s : State) : exec .crcclr s = .next (answer {} (setCrc 0 s)) := rfl

@[simp] theorem exec_crcupd (b : Byte) (s : State) :
    exec (.crcupd b) s = .next (answer {} (setCrc (crcStep s.crcAcc b) s)) := rfl

@[simp] theorem exec_crcrd (s : State) : exec .crcrd s = .next (answer { data := s.crcAcc } s) := rfl

@[simp] theorem exec_tblrd (b : Byte) (s : State) : exec (.tblrd b) s = .next (answer { data := table b } s) := rfl

theorem exec_addb_eq (b : Byte) (s : State) : exec (.addb b) s = execAddb b s := rfl

theorem exec_getm (s : State) : exec .getm s =
    if pending s then
      .next (answer { flag := true, data := lengthData s.cfg s.buf } (setIndex 0 (setOut s.buf s)))
    else .next (answer { data := 5 } (setOut [] s)) := rfl

@[simp] theorem exec_prst (s : State) : exec .prst s = .next (answer {} (setIndex 0 s)) := rfl

@[simp] theorem exec_stat (s : State) :
    exec .stat s = .next (answer { flag := pending s, data := s.index.setWidth 16 } s) := rfl

@[simp] theorem exec_rdb (b : Byte) (s : State) : exec (.rdb b) s = .next (answer { data := outOperand s b } s) := rfl

@[simp] theorem exec_len (s : State) : exec .len s = .next (answer { data := lengthData s.cfg s.out } s) := rfl

theorem exec_chk (s : State) : exec .chk s =
    if frameFits s.cfg s.out then .next (answer { flag := frameVerified s.cfg s.out } s)
    else .fault .readOutsideOut := rfl

/-- `ADDB` answers a next state exactly when nothing is pending and the byte has a place in `BUF`. -/
theorem exec_addb (b : Byte) (s : State) (hp : pending s = false) (hi : s.index.toNat < s.cfg.maxCapacity) :
    exec (.addb b) s = .next (endArm (parserArm b (storeByte b s)) (storeByte b s)) := by
  rw [exec_addb_eq, execAddb, hp]
  simp [hi, byteOperand]

/-- All that `ADDB` can do when it answers a next state. -/
theorem exec_addb_next (b : Byte) (s t : State) (h : exec (.addb b) s = .next t) :
    pending s = false ∧ s.index.toNat < s.cfg.maxCapacity ∧
      t = endArm (parserArm b (storeByte b s)) (storeByte b s) := by
  rw [exec_addb_eq, execAddb] at h
  split at h
  · cases h
  · next hp =>
    split at h
    · next hi =>
      refine ⟨by simpa using hp, hi, ?_⟩
      simpa [byteOperand] using h.symm
    · cases h

/-- All that `GETM` can do. -/
theorem exec_getm_next (s t : State) (h : exec .getm s = .next t) :
    (pending s = true ∧
      t = answer { flag := true, data := lengthData s.cfg s.buf } (setIndex 0 (setOut s.buf s))) ∨
    (pending s = false ∧ t = answer { data := 5 } (setOut [] s)) := by
  rw [exec_getm] at h
  split at h
  · next hp => exact .inl ⟨hp, by simpa using h.symm⟩
  · next hp => exact .inr ⟨by simpa using hp, by simpa using h.symm⟩

/-- All that `CHK` can do when it answers a next state. -/
theorem exec_chk_next (s t : State) (h : exec .chk s = .next t) :
    frameFits s.cfg s.out = true ∧ t = answer { flag := frameVerified s.cfg s.out } s := by
  rw [exec_chk] at h
  split at h
  · exact ⟨by assumption, by simpa using h.symm⟩
  · cases h

/-- The arm of the first byte (41_stream_parser.md R102 step 2). -/
theorem parserArm_first (b : Byte) (s : State) (h : s.index.toNat = 1) :
    parserArm b s = if b = lo8 s.cfg.header then .accept else .resyncHdr0 := by
  rw [parserArm, if_pos h]

/-- The arm of the second byte (41_stream_parser.md R102 step 3). -/
theorem parserArm_second (b : Byte) (s : State) (h : s.index.toNat = 2) :
    parserArm b s = if frameHeader s.cfg s.buf = s.cfg.header then .accept else .resyncHdr1 := by
  rw [parserArm, if_neg (by omega), if_pos h]

/-- The arm of the checksum bytes (41_stream_parser.md R102 step 4). -/
theorem parserArm_checksum (b : Byte) (s : State) (h : s.index.toNat = 3 ∨ s.index.toNat = 4) :
    parserArm b s = .accept := by
  rw [parserArm, if_neg (by omega), if_neg (by omega), headerBlockSize, if_pos (by omega)]

/-- The arm of a byte stored past the checksum, once the size byte is there (41_stream_parser.md R102 step 4). -/
theorem parserArm_of_five_le (b : Byte) (s : State) (h : 5 ≤ s.index.toNat) :
    parserArm b s =
      if s.cfg.maxCapacity < (frameSize s.cfg s.buf).toNat + 5 then .resyncSize
      else if s.index.toNat < (frameSize s.cfg s.buf).toNat + 5 then .accept
      else if frameVerified s.cfg s.buf then .complete
      else .resyncCrc := by
  simp only [parserArm, totalLength_toNat, headerBlockSize]
  rw [if_neg (by omega), if_neg (by omega), if_neg (by omega)]

/-- A byte stored with the counter below 255 moves the counter by one (41_stream_parser.md R117 a). -/
theorem storeByte_index_toNat (b : Byte) (s : State) (h : s.index.toNat < 255) :
    (storeByte b s).index.toNat = s.index.toNat + 1 := by
  have one : (1 : Byte).toNat = 1 := rfl
  simp only [storeByte_index, BitVec.toNat_add, one]
  omega

end Sys2Proof.Machine
end

