-- ==== Sys2Proof/Laws/PerInstr.lean ====
section
/-! SUPPORT. What is said of every command as syntax, one lemma per constructor. -/

namespace Sys2Proof.Laws.RoundTrip

/-- A well-formed command is what its encoding decodes to (30_encoding.md R61, R66, R69). -/
def Statement (i : Instr) : Prop := i.wellFormed = true → decode (encode i) = .ok i

theorem crcclr : Statement .crcclr := fun _ => rfl

theorem crcupd (imm8 : Byte) : Statement (.crcupd imm8) := fun _ => decode_commandWord 0x11 imm8

theorem crcrd : Statement .crcrd := fun _ => rfl

theorem tblrd (imm8 : Byte) : Statement (.tblrd imm8) := fun _ => decode_commandWord 0x13 imm8

theorem addb (imm8 : Byte) : Statement (.addb imm8) := fun _ => decode_commandWord 0x20 imm8

theorem getm : Statement .getm := fun _ => rfl

theorem prst : Statement .prst := fun _ => rfl

theorem stat : Statement .stat := fun _ => rfl

theorem rdb (imm8 : Byte) : Statement (.rdb imm8) := fun _ => decode_commandWord 0x30 imm8

theorem len : Statement .len := fun _ => rfl

theorem chk : Statement .chk := fun _ => rfl

end Sys2Proof.Laws.RoundTrip
end

