-- ==== Sys2Proof/Tests/Slice0.lean ====
section
/-! SUPPORT. Tests, their expected values from the vectors and tables of spec/, and a witness for every statement that has
hypotheses. -/

namespace Sys2Proof.Tests

open Sys2Proof.Machine

/-! ## Helpers -/

/-- The state of an answer. -/
def stateOf : Answer → Option State
  | .next s => some s
  | .fault _ => none
  | .refused _ => none

/-- The response word of the command just answered. -/
def responseOf (a : Answer) : Option (BitVec 20) := (stateOf a).bind fun s => s.responses.head?.map Response.word

/-- `INDEX` after a command. -/
def indexOf (a : Answer) : Option Nat := (stateOf a).map fun s => s.index.toNat

/-- The first bytes of `BUF` after a command. -/
def bufOf (n : Nat) (a : Answer) : Option (List Byte) :=
  (stateOf a).map fun s => (List.range n).map (Memory.read s.cfg s.buf)

/-- The first bytes of `OUT` after a command. -/
def outOf (n : Nat) (a : Answer) : Option (List Byte) :=
  (stateOf a).map fun s => (List.range n).map (Memory.read s.cfg s.out)

/-- An array with the given bytes stored from an offset on. -/
def arrayFrom (cfg : Config) (m : Memory) : Nat → List Byte → Memory
  | _, [] => m
  | k, b :: bs => arrayFrom cfg (Memory.write cfg m k b) (k + 1) bs

/-- An instance with the default header. -/
def sized (n : Nat) : Config := { header := 0x3AA3, maxCapacity := n }

/-- The state with these bytes of a candidate in `BUF`. -/
def holding (cfg : Config) (bs : List Byte) : State :=
  { State.resetWith cfg with buf := arrayFrom cfg noneImage 0 bs, index := BitVec.ofNat 8 bs.length }

/-- The state with these bytes in `OUT`. -/
def taken (cfg : Config) (bs : List Byte) : State :=
  { State.resetWith cfg with out := arrayFrom cfg noneImage 0 bs }

/-- `F10`, the six-byte frame of the vectors, pending. -/
def f10Pending : State := holding (sized 254) [0xA3, 0x3A, 0x80, 0x07, 0x01, 0x0A]

/-- `F10` but for its last byte. -/
def f10Open : State := holding (sized 254) [0xA3, 0x3A, 0x80, 0x07, 0x01]

/-- A candidate of the greatest size, all but its last byte stored, `INDEX = MAX_CAPACITY - 1`. -/
def longest : State := { State.resetWith (sized 254) with buf := [(4, 0xF9)], index := 253 }

/-- A state with the host's next inputs. -/
def facing (s : State) (inputs : List HostInput) : State := { s with inputs := inputs }

/-! ## Well-formedness: an ill-formed line for each check, which is refused (30_encoding.md R62, R70, R71) -/

theorem test_wellFormed_refuses_missing_operand : AsmLine.wellFormed ⟨.addb, []⟩ = false := by decide

theorem test_wellFormed_refuses_second_operand : AsmLine.wellFormed ⟨.rdb, [1, 2]⟩ = false := by decide

theorem test_wellFormed_refuses_operand_of_format_N : AsmLine.wellFormed ⟨.getm, [0]⟩ = false := by decide

theorem test_wellFormed_refuses_256 : AsmLine.wellFormed ⟨.tblrd, [256]⟩ = false := by decide

theorem test_wellFormed_refuses_256_in_list : AsmLine.wellFormed ⟨.crc16, [0, 256]⟩ = false := by decide

theorem test_expand_refuses_ill_formed : AsmLine.expand ⟨.crcupd, [256]⟩ = none ∧ AsmLine.expand ⟨.chk, [0]⟩ = none := by
  decide

theorem test_wellFormed_takes_legal_lines :
    AsmLine.wellFormed ⟨.addb, [255]⟩ = true ∧ AsmLine.wellFormed ⟨.getm, []⟩ = true ∧
    AsmLine.wellFormed ⟨.crc16, []⟩ = true ∧ AsmLine.wellFormed ⟨.feed, [0, 255]⟩ = true := by decide

/-! ## Decoding: every row's word written out from R66 (V40, V41) -/

theorem test_decode_crc_engine :
    decode 0b0001000000000000#16 = .ok .crcclr ∧ decode 0b0001000100110001#16 = .ok (.crcupd 0x31) ∧
    decode 0b0001001000000000#16 = .ok .crcrd ∧ decode 0b0001001110000000#16 = .ok (.tblrd 0x80) := by decide

theorem test_decode_stream_parser :
    decode 0b0010000010100011#16 = .ok (.addb 0xA3) ∧ decode 0b0010000100000000#16 = .ok .getm ∧
    decode 0b0010001000000000#16 = .ok .prst ∧ decode 0b0010001100000000#16 = .ok .stat := by decide

theorem test_decode_message_output :
    decode 0b0011000000001100#16 = .ok (.rdb 12) ∧ decode 0b0011000100000000#16 = .ok .len ∧
    decode 0b0011001000000000#16 = .ok .chk := by decide

theorem test_decode_ignores_operand_of_format_N :
    decode 0x21FF = .ok .getm ∧ decode 0x10FF = .ok .crcclr ∧ decode 0x217F = .ok .getm := by decide

theorem test_decode_refuses_reserved :
    [0x0000, 0x0FFF, 0x1400, 0x1FFF, 0x2400, 0x2F00, 0x3300, 0x4000, 0xFFFF].map decode =
      [0x00, 0x0F, 0x14, 0x1F, 0x24, 0x2F, 0x33, 0x40, 0xFF].map fun op => .error (.reservedOpcode op) := by decide

theorem test_encode :
    [Instr.crcclr, .crcupd 0x31, .crcrd, .tblrd 0x80, .addb 0xA3, .addb 0x00, .getm, .prst, .stat, .rdb 0, .rdb 12, .len,
      .chk].map encode =
    [0x1000, 0x1131, 0x1200, 0x1380, 0x20A3, 0x2000, 0x2100, 0x2200, 0x2300, 0x3000, 0x300C, 0x3100, 0x3200] := by decide

theorem test_table_word : decodeTableWord 16 0x20A3 = some (.addb 0xA3) ∧ decodeTableWord 16 0x1400 = none := by decide

theorem test_fetch_word :
    responseOf (step (State.reset.withFetchWord 16 0x13A3)) = some 0x07940 ∧
    step (State.reset.withFetchWord 16 0x4000) = .refused (.reservedOpcode 0x40) := ⟨by decide, rfl⟩

/-! ## Assembler text (R70, R71) -/

theorem test_assemble_comment_and_forms :
    assemble "ADDB 0xA3 ; first\n\n  GETM\nRDB 12".toList = some [0x20A3, 0x2100, 0x300C] := by decide

theorem test_assemble_pseudo :
    assembleLine "CRC16 0x31, 50".toList = some [.crcclr, .crcupd 0x31, .crcupd 50, .crcrd] ∧
    assembleLine "CRC16".toList = some [.crcclr, .crcrd] ∧
    assembleLine "FEED 0xA3, 0x3A".toList = some [.addb 0xA3, .addb 0x3A] := by decide

theorem test_assemble_refuses :
    assembleLine "ADDB 256".toList = none ∧ assembleLine "ADDB".toList = none ∧ assembleLine "GETM 1".toList = none ∧
    assembleLine "JUMP 1".toList = none ∧ assembleLine "ADDB 0x1".toList = none := by decide

theorem test_render_word : renderWord (encode (.addb 0xA3)) = "20A3".toList ∧ renderWord (encode .getm) = "2100".toList := by
  decide

/-! ## The table of R81 -/

/-- Sixty-four entries of the table. -/
def tableSlice (first : Nat) : List Half := (List.range 64).map fun k => table (BitVec.ofNat 8 (first + k))

/-- 40_crc_engine.md R81, rows 0x00 to 0x38. -/
theorem test_table_a : tableSlice 0 =
    [0x0000, 0xC0C1, 0xC181, 0x0140, 0xC301, 0x03C0, 0x0280, 0xC241] ++
    [0xC601, 0x06C0, 0x0780, 0xC741, 0x0500, 0xC5C1, 0xC481, 0x0440] ++
    [0xCC01, 0x0CC0, 0x0D80, 0xCD41, 0x0F00, 0xCFC1, 0xCE81, 0x0E40] ++
    [0x0A00, 0xCAC1, 0xCB81, 0x0B40, 0xC901, 0x09C0, 0x0880, 0xC841] ++
    [0xD801, 0x18C0, 0x1980, 0xD941, 0x1B00, 0xDBC1, 0xDA81, 0x1A40] ++
    [0x1E00, 0xDEC1, 0xDF81, 0x1F40, 0xDD01, 0x1DC0, 0x1C80, 0xDC41] ++
    [0x1400, 0xD4C1, 0xD581, 0x1540, 0xD701, 0x17C0, 0x1680, 0xD641] ++
    [0xD201, 0x12C0, 0x1380, 0xD341, 0x1100, 0xD1C1, 0xD081, 0x1040] := by decide

/-- 40_crc_engine.md R81, rows 0x40 to 0x78. -/
theorem test_table_b : tableSlice 64 =
    [0xF001, 0x30C0, 0x3180, 0xF141, 0x3300, 0xF3C1, 0xF281, 0x3240] ++
    [0x3600, 0xF6C1, 0xF781, 0x3740, 0xF501, 0x35C0, 0x3480, 0xF441] ++
    [0x3C00, 0xFCC1, 0xFD81, 0x3D40, 0xFF01, 0x3FC0, 0x3E80, 0xFE41] ++
    [0xFA01, 0x3AC0, 0x3B80, 0xFB41, 0x3900, 0xF9C1, 0xF881, 0x3840] ++
    [0x2800, 0xE8C1, 0xE981, 0x2940, 0xEB01, 0x2BC0, 0x2A80, 0xEA41] ++
    [0xEE01, 0x2EC0, 0x2F80, 0xEF41, 0x2D00, 0xEDC1, 0xEC81, 0x2C40] ++
    [0xE401, 0x24C0, 0x2580, 0xE541, 0x2700, 0xE7C1, 0xE681, 0x2640] ++
    [0x2200, 0xE2C1, 0xE381, 0x2340, 0xE101, 0x21C0, 0x2080, 0xE041] := by decide

/-- 40_crc_engine.md R81, rows 0x80 to 0xB8. -/
theorem test_table_c : tableSlice 128 =
    [0xA001, 0x60C0, 0x6180, 0xA141, 0x6300, 0xA3C1, 0xA281, 0x6240] ++
    [0x6600, 0xA6C1, 0xA781, 0x6740, 0xA501, 0x65C0, 0x6480, 0xA441] ++
    [0x6C00, 0xACC1, 0xAD81, 0x6D40, 0xAF01, 0x6FC0, 0x6E80, 0xAE41] ++
    [0xAA01, 0x6AC0, 0x6B80, 0xAB41, 0x6900, 0xA9C1, 0xA881, 0x6840] ++
    [0x7800, 0xB8C1, 0xB981, 0x7940, 0xBB01, 0x7BC0, 0x7A80, 0xBA41] ++
    [0xBE01, 0x7EC0, 0x7F80, 0xBF41, 0x7D00, 0xBDC1, 0xBC81, 0x7C40] ++
    [0xB401, 0x74C0, 0x7580, 0xB541, 0x7700, 0xB7C1, 0xB681, 0x7640] ++
    [0x7200, 0xB2C1, 0xB381, 0x7340, 0xB101, 0x71C0, 0x7080, 0xB041] := by decide

/-- 40_crc_engine.md R81, rows 0xC0 to 0xF8. -/
theorem test_table_d : tableSlice 192 =
    [0x5000, 0x90C1, 0x9181, 0x5140, 0x9301, 0x53C0, 0x5280, 0x9241] ++
    [0x9601, 0x56C0, 0x5780, 0x9741, 0x5500, 0x95C1, 0x9481, 0x5440] ++
    [0x9C01, 0x5CC0, 0x5D80, 0x9D41, 0x5F00, 0x9FC1, 0x9E81, 0x5E40] ++
    [0x5A00, 0x9AC1, 0x9B81, 0x5B40, 0x9901, 0x59C0, 0x5880, 0x9841] ++
    [0x8801, 0x48C0, 0x4980, 0x8941, 0x4B00, 0x8BC1, 0x8A81, 0x4A40] ++
    [0x4E00, 0x8EC1, 0x8F81, 0x4F40, 0x8D01, 0x4DC0, 0x4C80, 0x8C41] ++
    [0x4400, 0x84C1, 0x8581, 0x4540, 0x8701, 0x47C0, 0x4680, 0x8641] ++
    [0x8201, 0x42C0, 0x4380, 0x8341, 0x4100, 0x81C1, 0x8081, 0x4040] := by decide

/-! ## The checksum (V1 to V3) -/

theorem test_crc16_check_value : crc16 [0x31, 0x32, 0x33, 0x34, 0x35, 0x36, 0x37, 0x38, 0x39] = 0xBB3D := by decide

theorem test_crc16_of_ranges :
    crc16 [] = 0x0000 ∧ crc16 [0x80] = 0xA001 ∧ crc16 [0x0A] = 0x0780 ∧ crc16 [0x01, 0x02] = 0x5180 ∧
    crc16 [0xFF, 0xFF, 0xFF, 0xFF] = 0x9401 ∧ crc16 [0x0A, 0x68, 0x69, 0x00, 0xB5, 0x07, 0x00, 0x00] = 0x4DF7 := by decide

theorem test_crcStep_corners :
    crcStep 0xFFFF 0x00 = 0x40BF ∧ crcStep 0xFFFF 0xFF = 0x00FF ∧ crcStep 0x00FF 0xFF = 0x0000 ∧
    crcStep 0x1234 0x56 = 0xE993 ∧ crcStep 0xBB3D 0x3D = 0x00BB := by decide

/-! ## The commands, one step each -/

/-- V5. -/
theorem test_crcclr : ∀ a ∈ [exec .crcclr { State.reset with crcAcc := 0xBB3D }],
    responseOf a = some 0x00000 ∧ (stateOf a).map State.crcAcc = some 0x0000 := by decide

/-- V5. -/
theorem test_crcupd : ∀ a ∈ [exec (.crcupd 0x3D) { State.reset with crcAcc := 0xBB3D }],
    responseOf a = some 0x00000 ∧ (stateOf a).map State.crcAcc = some 0x00BB := by decide

/-- V5. -/
theorem test_crcrd : ∀ a ∈ [exec .crcrd { State.reset with crcAcc := 0xBB3D }],
    responseOf a = some 0x0BB3D ∧ (stateOf a).map State.crcAcc = some 0xBB3D := by decide

/-- V4. -/
theorem test_tblrd :
    responseOf (exec (.tblrd 0x03) State.reset) = some 0x00140 ∧
    responseOf (exec (.tblrd 0xA3) State.reset) = some 0x07940 ∧
    responseOf (exec (.tblrd 0xFE) State.reset) = some 0x08081 := by decide

/-- V10 to V16, V25: the header block. -/
theorem test_addb_header_block :
    ([(State.reset, 0xA3), (State.reset, 0x3A), (holding (sized 254) [0xA3], 0x3A), (holding (sized 254) [0xA3], 0x3B),
      (holding (sized 254) [0xA3, 0x3A], 0xF7), (holding (sized 254) [0xA3, 0x3A, 0x00, 0x00], 0x08),
      (holding (sized 16) [0xA3, 0x3A, 0x00, 0x00], 0x0C), (holding (sized 16) [0xA3, 0x3A, 0x00, 0x00], 0x0B),
      (State.resetWith ⟨0x1234, 254⟩, 0xA3), (State.resetWith ⟨0x1234, 254⟩, 0x34)].map
      fun p : State × Byte => (responseOf (exec (.addb p.2) p.1), indexOf (exec (.addb p.2) p.1))) =
    [(some 0x00000, some 1), (some 0x20000, some 0), (some 0x00000, some 2), (some 0x30000, some 0),
      (some 0x00000, some 3), (some 0x00000, some 5), (some 0x40000, some 0), (some 0x00000, some 5),
      (some 0x20000, some 0), (some 0x00000, some 1)] := by decide

/-- V11 (the stored byte), V16 (254), V17 to V20: where a candidate ends. -/
theorem test_addb_end_of_frame :
    bufOf 2 (exec (.addb 0x3A) State.reset) = some [0x3A, 0x3A] ∧
    ([(holding (sized 254) [0xA3, 0x3A, 0x00, 0x00], 0xF9), (holding (sized 254) [0xA3, 0x3A, 0x00, 0x00], 0xFA),
      (holding (sized 254) [0xA3, 0x3A, 0x00, 0x00], 0xFF), (f10Open, 0x0A), (f10Open, 0x0B),
      (holding (sized 254) [0xA3, 0x3A, 0x81, 0x07, 0x01], 0x0A), (holding (sized 254) [0xA3, 0x3A, 0x00, 0x00], 0x00),
      (holding (sized 254) [0xA3, 0x3A, 0x01, 0x00], 0x00), (holding (sized 254) [0xA3, 0x3A, 0x00, 0x00, 0x01], 0x00)].map
      fun p : State × Byte => (responseOf (exec (.addb p.2) p.1), indexOf (exec (.addb p.2) p.1))) =
    [(some 0x00000, some 5), (some 0x40000, some 0), (some 0x40000, some 0), (some 0x90000, some 6), (some 0x50000, some 0),
      (some 0x50000, some 0), (some 0x90000, some 5), (some 0x50000, some 0), (some 0x90000, some 6)] := by decide

/-- V21, a stale byte past the frame taken along. -/
theorem test_getm_pending :
    ∀ a ∈ [exec .getm { f10Pending with buf := Memory.write (sized 254) f10Pending.buf 6 0x68 }],
      responseOf a = some 0x80006 ∧ indexOf a = some 0 ∧
      outOf 8 a = some [0xA3, 0x3A, 0x80, 0x07, 0x01, 0x0A, 0x68, 0x00] := by decide

/-- V22, in mid-frame, over an earlier `OUT`. -/
theorem test_getm_nothing_pending :
    ∀ a ∈ [exec .getm { holding (sized 254) [0xA3, 0x3A, 0x99] with out := f10Pending.buf }],
      responseOf a = some 0x00005 ∧ indexOf a = some 3 ∧ outOf 6 a = some [0xA3, 0x3A, 0, 0, 0, 0] ∧
      bufOf 3 a = some [0xA3, 0x3A, 0x99] := by decide

/-- V23. -/
theorem test_prst : ∀ a ∈ [exec .prst f10Pending],
    responseOf a = some 0x00000 ∧ indexOf a = some 0 ∧ bufOf 6 a = some [0xA3, 0x3A, 0x80, 0x07, 0x01, 0x0A] := by decide

/-- V23. -/
theorem test_stat :
    responseOf (exec .stat (holding (sized 254) [0xA3, 0x3A, 0x99])) = some 0x00003 ∧
    responseOf (exec .stat f10Pending) = some 0x80006 ∧ responseOf (exec .stat State.reset) = some 0x00000 := by decide

/-- The frame of S1. -/
def s1 : List Byte := [0xA3, 0x3A, 0xF7, 0x4D, 0x08, 0x0A, 0x68, 0x69, 0x00, 0xB5, 0x07, 0x00, 0x00]

/-- V30. -/
theorem test_rdb :
    ([0, 1, 2, 3, 4, 5, 9, 12, 13, 253, 254, 255].map fun k : Byte => responseOf (exec (.rdb k) (taken (sized 254) s1))) =
      [some 0x000A3, some 0x0003A, some 0x000F7, some 0x0004D, some 0x00008, some 0x0000A, some 0x000B5, some 0x00000,
        some 0x00000, some 0x00000, some 0x00000, some 0x00000] := by decide

/-- V30, V31. -/
theorem test_len :
    responseOf (exec .len (taken (sized 254) s1)) = some 0x0000D ∧ responseOf (exec .len State.reset) = some 0x00005 := by
  decide

/-- V30 to V32. -/
theorem test_chk :
    responseOf (exec .chk (taken (sized 254) s1)) = some 0x80000 ∧ responseOf (exec .chk State.reset) = some 0x80000 ∧
    responseOf (exec .chk (taken (sized 254) [0xA3, 0x3A, 0x81, 0x07, 0x01, 0x0A])) = some 0x00000 := by decide

/-- V26. -/
theorem test_addb_pending_faults : exec (.addb 0xA3) f10Pending = .fault .addbWhilePending := rfl

/-! ## Witnesses: for every statement with hypotheses, states and operands that meet them, at the ends of each clause -/

/-- The host's next inputs are no part of R108. -/
theorem facing_inv (s : State) (inputs : List HostInput) (h : s.Inv) : (facing s inputs).Inv :=
  ⟨h.legal, h.bufWf, h.outWf, h.indexLe, h.lowHeader, h.highHeader, h.sizeFits, h.pendingVerified, h.outHeader, h.outFits,
    h.outVerified⟩

theorem reset_inv : State.reset.Inv :=
  ⟨by decide, by decide, by decide, by decide, by decide, by decide, by decide, by decide, by decide, by decide, by decide⟩

theorem small_reset_inv : (State.resetWith (sized 6)).Inv :=
  ⟨by decide, by decide, by decide, by decide, by decide, by decide, by decide, by decide, by decide, by decide, by decide⟩

theorem first_byte_inv : (holding (sized 254) [0xA3]).Inv :=
  ⟨by decide, by decide, by decide, by decide, by decide, by decide, by decide, by decide, by decide, by decide, by decide⟩

theorem header_inv : (holding (sized 254) [0xA3, 0x3A]).Inv :=
  ⟨by decide, by decide, by decide, by decide, by decide, by decide, by decide, by decide, by decide, by decide, by decide⟩

theorem checksum_byte_inv : (holding (sized 254) [0xA3, 0x3A, 0x80]).Inv :=
  ⟨by decide, by decide, by decide, by decide, by decide, by decide, by decide, by decide, by decide, by decide, by decide⟩

theorem header_block_inv : (holding (sized 254) [0xA3, 0x3A, 0x80, 0x07]).Inv :=
  ⟨by decide, by decide, by decide, by decide, by decide, by decide, by decide, by decide, by decide, by decide, by decide⟩

theorem zero_checksum_inv : (holding (sized 254) [0xA3, 0x3A, 0x00, 0x00]).Inv :=
  ⟨by decide, by decide, by decide, by decide, by decide, by decide, by decide, by decide, by decide, by decide, by decide⟩

theorem small_header_block_inv : (holding (sized 6) [0xA3, 0x3A, 0x80, 0x07]).Inv :=
  ⟨by decide, by decide, by decide, by decide, by decide, by decide, by decide, by decide, by decide, by decide, by decide⟩

theorem small_open_inv : (holding (sized 6) [0xA3, 0x3A, 0x80, 0x07, 0x01]).Inv :=
  ⟨by decide, by decide, by decide, by decide, by decide, by decide, by decide, by decide, by decide, by decide, by decide⟩

theorem f10Open_inv : f10Open.Inv :=
  ⟨by decide, by decide, by decide, by decide, by decide, by decide, by decide, by decide, by decide, by decide, by decide⟩

theorem f10Pending_inv : f10Pending.Inv :=
  ⟨by decide, by decide, by decide, by decide, by decide, by decide, by decide, by decide, by decide, by decide, by decide⟩

theorem longest_inv : longest.Inv :=
  ⟨by decide, by decide, by decide, by decide, by decide, by decide, by decide, by decide, by decide, by decide, by decide⟩

theorem f10Taken_inv : (taken (sized 6) [0xA3, 0x3A, 0x80, 0x07, 0x01, 0x0A]).Inv :=
  ⟨by decide, by decide, by decide, by decide, by decide, by decide, by decide, by decide, by decide, by decide, by decide⟩

theorem witness_DecodeEncodeAgree :
    (Instr.addb 0xFF).wellFormed = true ∧ decode 0x20FF = .ok (.addb 0xFF) ∧ decode 0x32FF = .ok .chk := by decide

theorem witness_DecoderTotalOnEveryWord :
    opField 0x0FFF ∉ [0x10, 0x11, 0x12, 0x13, 0x20, 0x21, 0x22, 0x23, 0x30, 0x31, 0x32] ∧
    opField 0x3300 ∉ [0x10, 0x11, 0x12, 0x13, 0x20, 0x21, 0x22, 0x23, 0x30, 0x31, 0x32] ∧
    (opField 0x30FF = (Instr.rdb 0xFF).opcode ∧ imm8Field 0x30FF = (Instr.rdb 0xFF).operandByte) := by decide

theorem witness_ResponseWordFields :
    (∃ t, exec .getm State.reset = .next t) ∧ (∀ b, Instr.getm ≠ .addb b) := ⟨⟨_, rfl⟩, by decide⟩

theorem witness_StepRunsTheDecodedCommand :
    (facing State.reset [.command 0x20A3, .reset]).inputs = .command 0x20A3 :: [.reset] ∧
    decode 0x20A3 = .ok (.addb 0xA3) := by decide

theorem witness_StepRefusesReservedOpcodes :
    (facing State.reset [.command 0x33FF]).inputs = .command 0x33FF :: [] ∧
    opField 0x33FF ∉ [0x10, 0x11, 0x12, 0x13, 0x20, 0x21, 0x22, 0x23, 0x30, 0x31, 0x32] := by decide

theorem witness_StepWithoutInputChangesNothing : State.reset.inputs = [] := by decide

theorem witness_EveryCommandIsAnswered :
    (facing State.reset [.command 0x20A3]).Inv ∧
    (facing State.reset [.command 0x20A3]).inputs = .command 0x20A3 :: [] ∧ decode 0x20A3 = .ok (.addb 0xA3) ∧
    ∀ b, Instr.addb 0xA3 = .addb b → pending (facing State.reset [.command 0x20A3]) = false :=
  ⟨facing_inv _ _ reset_inv, by decide, by decide, fun _ _ => by decide⟩

/-- The third clause of the statement in a state that no run reaches: `OUT` declares one byte more than the array
holds. -/
theorem witness_WhereTheCommandsStop :
    pending f10Pending = true ∧
    (pending { State.resetWith (sized 6) with index := 6 } = false ∧ (sized 6).maxCapacity ≤ (6 : Byte).toNat) ∧
    (sized 254).maxCapacity < (Memory.read (sized 254) (taken (sized 254) [0xA3, 0x3A, 0x00, 0x00, 0xFA]).out 4).toNat + 5 ∧
    exec (.addb 0x00) f10Pending = .fault .addbWhilePending := ⟨by decide, by decide, by decide, rfl⟩

theorem witness_StateAfterReset :
    (sized 6).Legal ∧ (sized 254).Legal ∧ 5 < (sized 6).maxCapacity ∧ 253 < (sized 254).maxCapacity := by decide

theorem witness_ExternalResetFromAnyState :
    (facing f10Pending [.reset, .command 0x2300]).inputs = .reset :: [.command 0x2300] := by decide

theorem witness_SentinelImageAndItsCheck :
    State.reset.cfg.Legal ∧ State.reset.out = noneImage ∧ 2 ≤ 2 ∧ 2 ≤ 253 := by decide

theorem witness_ChecksumIsLinear :
    ([0x01, 0xFF] : List Byte).length = ([0x80, 0x0F] : List Byte).length := by decide

theorem witness_CrcrdReturnsTheChecksumOfTheRange :
    (∀ i ∈ [Instr.crcupd 0x31, .addb 0xA3, .crcupd 0x32], i ≠ .crcclr) ∧
    ∃ t, execAll [.crcclr, .crcupd 0x31, .addb 0xA3, .crcupd 0x32] State.reset = .next t := ⟨by decide, _, rfl⟩

theorem witness_PseudoCommandsExpand : ∀ n ∈ [0, 255], n < 256 := by decide

theorem witness_ChecksumSeesAnyChangedByte : (0x01 : Byte) ≠ 0 ∧ (0x80 : Byte) ≠ 0 := by decide

/-- One state and operand for each arm of R102: both outcomes of the first and of the second byte, the two checksum bytes,
the size byte at both sides of the bound, a body byte that is not the last, and both outcomes of the last byte. -/
theorem witness_AddbFollowsTheParserSteps :
    (State.reset.Inv ∧ pending State.reset = false ∧ (0xA3 : Byte) = lo8 0x3AA3 ∧ (0x3A : Byte) ≠ lo8 0x3AA3) ∧
    ((holding (sized 254) [0xA3]).Inv ∧ pending (holding (sized 254) [0xA3]) = false ∧
      le16 0xA3 0x3A = 0x3AA3 ∧ le16 0xA3 0xA3 ≠ 0x3AA3) ∧
    ((holding (sized 254) [0xA3, 0x3A]).Inv ∧ pending (holding (sized 254) [0xA3, 0x3A]) = false) ∧
    ((holding (sized 254) [0xA3, 0x3A, 0x80]).Inv ∧ pending (holding (sized 254) [0xA3, 0x3A, 0x80]) = false) ∧
    ((holding (sized 254) [0xA3, 0x3A, 0x80, 0x07]).Inv ∧ pending (holding (sized 254) [0xA3, 0x3A, 0x80, 0x07]) = false ∧
      (0xFA : Byte).toNat + 5 > 254 ∧ ¬ (0xF9 : Byte).toNat + 5 > 254 ∧ 5 < (0xF9 : Byte).toNat + 5) ∧
    (longest.Inv ∧ pending longest = false ∧ longest.index = 253) ∧
    (f10Open.Inv ∧ pending f10Open = false ∧ crc16 [0x0A] = le16 0x80 0x07 ∧ crc16 [0x0B] ≠ le16 0x80 0x07) :=
  ⟨⟨reset_inv, by decide, by decide, by decide⟩, ⟨first_byte_inv, by decide, by decide, by decide⟩,
    ⟨header_inv, by decide⟩, ⟨checksum_byte_inv, by decide⟩,
    ⟨header_block_inv, by decide, by decide, by decide, by decide⟩, ⟨longest_inv, by decide, by decide⟩,
    ⟨f10Open_inv, by decide, by decide, by decide⟩⟩

/-- At the first and at the last offset of the smallest array. -/
theorem witness_AddbStoresOneByteOnly :
    (Memory.wf (sized 6) (State.resetWith (sized 6)).buf ∧ ∃ t, exec (.addb 0xA3) (State.resetWith (sized 6)) = .next t) ∧
    (Memory.wf (sized 6) (holding (sized 6) [0xA3, 0x3A, 0x80, 0x07, 0x01]).buf ∧
      ∃ t, exec (.addb 0x0A) (holding (sized 6) [0xA3, 0x3A, 0x80, 0x07, 0x01]) = .next t) :=
  ⟨⟨by decide, _, rfl⟩, by decide, _, rfl⟩

theorem witness_ParserMakesForwardProgress :
    (longest.Inv ∧ pending longest = false) ∧
    ((State.resetWith (sized 6)).Inv ∧ pending (State.resetWith (sized 6)) = false ∧
      (List.replicate 6 (0x00 : Byte)).length = (sized 6).maxCapacity) :=
  ⟨⟨longest_inv, by decide⟩, small_reset_inv, by decide, by decide⟩

theorem witness_CauseCodesAndResync :
    (State.reset.Inv ∧ ∃ t, exec (.addb 0xA3) State.reset = .next t) ∧
    ((holding (sized 254) [0xA3]).Inv ∧ ∃ t, exec (.addb 0xA3) (holding (sized 254) [0xA3]) = .next t) ∧
    (f10Open.Inv ∧ ∃ t, exec (.addb 0x0A) f10Open = .next t) :=
  ⟨⟨reset_inv, _, rfl⟩, ⟨first_byte_inv, _, rfl⟩, f10Open_inv, _, rfl⟩

theorem witness_OversizeSizeByteResyncs :
    ((holding (sized 254) [0xA3, 0x3A, 0x80, 0x07]).Inv ∧ (holding (sized 254) [0xA3, 0x3A, 0x80, 0x07]).index = 4 ∧
      (0xFA : Byte).toNat + 5 > 254 ∧ (0xF9 : Byte).toNat + 5 ≤ 254) ∧
    ((holding (sized 6) [0xA3, 0x3A, 0x80, 0x07]).Inv ∧ (holding (sized 6) [0xA3, 0x3A, 0x80, 0x07]).index = 4 ∧
      (0x02 : Byte).toNat + 5 > 6 ∧ (0x01 : Byte).toNat + 5 ≤ 6) :=
  ⟨⟨header_block_inv, by decide, by decide, by decide⟩, small_header_block_inv, by decide, by decide, by decide⟩

theorem witness_EmptyFrameCompletesOnItsSizeByte :
    ((holding (sized 254) [0xA3, 0x3A, 0x00, 0x00]).Inv ∧ (holding (sized 254) [0xA3, 0x3A, 0x00, 0x00]).index = 4 ∧
      le16 0x00 0x00 = 0x0000) ∧
    ((holding (sized 254) [0xA3, 0x3A, 0x80, 0x07]).Inv ∧ (holding (sized 254) [0xA3, 0x3A, 0x80, 0x07]).index = 4 ∧
      le16 0x80 0x07 ≠ 0x0000) :=
  ⟨⟨zero_checksum_inv, by decide, by decide⟩, header_block_inv, by decide, by decide⟩

theorem witness_HeaderBytesInsideAFrameAreData :
    (holding (sized 254) [0xA3, 0x3A]).cfg.Legal ∧ 2 ≤ (holding (sized 254) [0xA3, 0x3A]).index.toNat ∧
    ∃ t, exec (.addb 0xA3) (holding (sized 254) [0xA3, 0x3A]) = .next t := ⟨by decide, by decide, _, rfl⟩

/-- The low header byte as the second byte. -/
theorem witness_FailedSecondByteIsNotReexamined :
    (holding (sized 254) [0xA3]).Inv ∧ (holding (sized 254) [0xA3]).index = 1 ∧ (0xA3 : Byte) ≠ hi8 0x3AA3 :=
  ⟨first_byte_inv, by decide, by decide⟩

theorem witness_GetmTakesTheFrameOrTheSentinel :
    pending f10Pending = true ∧ pending f10Open = false ∧ ∃ t, exec .getm f10Pending = .next t :=
  ⟨by decide, by decide, _, rfl⟩

theorem witness_CompletionStaysUntilTakenOrDropped :
    (f10Open.Inv ∧ ∃ t r, exec (.addb 0x0A) f10Open = .next t ∧ t.responses = r :: f10Open.responses ∧ r.flag = true) ∧
    (pending f10Pending = true ∧ (∃ t, exec .stat f10Pending = .next t) ∧ Instr.stat ≠ .getm ∧ Instr.stat ≠ .prst) :=
  ⟨⟨f10Open_inv, _, _, rfl, rfl, by decide⟩, by decide, ⟨_, rfl⟩, by decide, by decide⟩

/-- The least total length, 5, is pending; one byte less is not. -/
theorem witness_PendingIsDerivedAndItsLifetime :
    pending (holding (sized 254) [0xA3, 0x3A, 0x00, 0x00, 0x00]) = true ∧
    pending (holding (sized 254) [0xA3, 0x3A, 0x00, 0x00]) = false ∧
    (f10Open.Inv ∧ ∃ t, exec (.addb 0x0A) f10Open = .next t) ∧ (f10Pending.Inv ∧ ∃ t, exec .stat f10Pending = .next t) ∧
    (f10Pending.Inv ∧ ∃ t, exec .prst f10Pending = .next t) :=
  ⟨by decide, by decide, ⟨f10Open_inv, _, rfl⟩, ⟨f10Pending_inv, _, rfl⟩, f10Pending_inv, _, rfl⟩

theorem witness_NoSumWraps : longest.Inv ∧ pending longest = false ∧ longest.index.toNat = longest.cfg.maxCapacity - 1 :=
  ⟨longest_inv, by decide, by decide⟩

/-- The last offset inside the array and the first outside. -/
theorem witness_RdbReadsOneByte : (253 : Byte).toNat < (sized 254).maxCapacity ∧ ¬ (254 : Byte).toNat < (sized 254).maxCapacity := by
  decide

theorem witness_LenReturnsTheTotalLength :
    State.reset.Inv ∧ (taken (sized 6) [0xA3, 0x3A, 0x80, 0x07, 0x01, 0x0A]).Inv := ⟨reset_inv, f10Taken_inv⟩

theorem witness_ChkComparesTheChecksums :
    (Memory.read (sized 254) (taken (sized 254) [0xA3, 0x3A, 0x00, 0x00, 0xF9]).out 4).toNat + 5 ≤ (sized 254).maxCapacity ∧
    (Memory.read (sized 254) (taken (sized 254) [0xA3, 0x3A, 0x81, 0x07, 0x01, 0x0A]).out 4).toNat + 5 ≤
      (sized 254).maxCapacity ∧
    (taken (sized 6) [0xA3, 0x3A, 0x80, 0x07, 0x01, 0x0A]).Inv := ⟨by decide, by decide, f10Taken_inv⟩

theorem witness_OnlyTheNamedCommandsWrite :
    (∃ t, exec (.crcupd 0x31) f10Pending = .next t) ∧ (∃ t, exec (.addb 0x0A) f10Open = .next t) ∧
    (∃ t, exec .getm f10Pending = .next t) ∧ (∃ t, exec .chk f10Pending = .next t) ∧
    (Instr.stat ≠ .crcclr ∧ (∀ b, Instr.stat ≠ .crcupd b) ∧ (∀ b, Instr.stat ≠ .addb b) ∧ Instr.stat ≠ .getm ∧
      Instr.stat ≠ .prst ∧ ∃ t, exec .stat f10Pending = .next t) :=
  ⟨⟨_, rfl⟩, ⟨_, rfl⟩, ⟨_, rfl⟩, ⟨_, rfl⟩, by decide, by decide, by decide, by decide, by decide, _, rfl⟩

theorem witness_ReadsChangeNothingAndRepeat :
    (∃ t, exec .crcrd f10Pending = .next t) ∧ (∃ t, exec (.tblrd 0xFF) f10Pending = .next t) ∧
    (∃ t, exec .stat f10Pending = .next t) ∧ (∃ t, exec (.rdb 0xFF) f10Pending = .next t) ∧
    (∃ t, exec .len f10Pending = .next t) ∧ ∃ t, exec .chk f10Pending = .next t :=
  ⟨⟨_, rfl⟩, ⟨_, rfl⟩, ⟨_, rfl⟩, ⟨_, rfl⟩, ⟨_, rfl⟩, _, rfl⟩

theorem witness_ParserAndOutputIgnoreTheAccumulator :
    Instr.addb 0x0A ≠ .crcclr ∧ (∀ b, Instr.addb 0x0A ≠ .crcupd b) ∧ Instr.addb 0x0A ≠ .crcrd ∧
    ∃ t, exec (.addb 0x0A) f10Open = .next t := ⟨by decide, by decide, by decide, _, rfl⟩

theorem witness_OnlyTheOutputCommandsReadOut :
    ((∀ b, Instr.getm ≠ .rdb b) ∧ Instr.getm ≠ .len ∧ Instr.getm ≠ .chk ∧ ∃ t, exec .getm f10Pending = .next t) ∧
    ((∀ b, Instr.addb 0x0A ≠ .rdb b) ∧ Instr.addb 0x0A ≠ .len ∧ Instr.addb 0x0A ≠ .chk ∧
      ∃ t, exec (.addb 0x0A) f10Open = .next t) :=
  ⟨⟨by decide, by decide, by decide, _, rfl⟩, by decide, by decide, by decide, _, rfl⟩

theorem witness_EqualReadsMeanEqualContents :
    Memory.wf (sized 6) [(0, 0x00), (5, 0x01)] ∧
    (∀ k, k < (sized 6).maxCapacity →
      Memory.read (sized 6) [(0, 0x00), (5, 0x01)] k =
        Memory.read (sized 6) (Memory.write (sized 6) [(5, 0x01)] 0 0x00) k) ∧
    Memory.wf (sized 6) (Memory.write (sized 6) [(5, 0x01)] 0 0x00) := by decide

theorem witness_InvariantHoldsAfterReset : (sized 6).Legal ∧ (sized 254).Legal := by decide

theorem witness_EveryStepKeepsTheInvariant :
    (facing State.reset [.command 0x20A3]).Inv ∧ ∃ t, step (facing State.reset [.command 0x20A3]) = .next t :=
  ⟨facing_inv _ _ reset_inv, _, rfl⟩

/-- A run that ends with `F10` taken, and one that ends with it pending. -/
theorem witness_EveryReachedStateMeetsRule108 :
    (sized 6).Legal ∧
    (∃ t, run 7 { State.resetWith (sized 6) with inputs := issued ((wireFrame (sized 6) [0x0A]).map .addb ++ [.getm]) } =
      .next t ∧ t.out ≠ noneImage) ∧
    ∃ t, run 6 { State.resetWith (sized 6) with inputs := issued ((wireFrame (sized 6) [0x0A]).map .addb ++ [.getm]) } =
      .next t ∧ t.index.toNat = (Memory.read t.cfg t.buf 4).toNat + 5 :=
  ⟨by decide, ⟨_, rfl, by decide⟩, _, rfl, by decide⟩

/-- The longest body of the smallest instance. -/
theorem witness_WholeFrameRoundTrip :
    (facing (State.resetWith (sized 6)) (issued ((wireFrame (sized 6) [0x0A]).map .addb ++ [.getm]) ++ [.reset])).Inv ∧
    (State.resetWith (sized 6)).index = 0 ∧ ([0x0A] : List Byte).length + 5 ≤ (sized 6).maxCapacity :=
  ⟨facing_inv _ _ small_reset_inv, by decide, by decide⟩

theorem witness_CorruptedBodyIsNeverEmitted :
    (facing (State.resetWith (sized 6))
      (issued (((wireFrame (sized 6) ([] ++ 0x0A :: [])).take 5 ++ ([] ++ (0x0A ^^^ 0x01) :: [])).map .addb) ++ [])).Inv ∧
    (State.resetWith (sized 6)).index = 0 ∧ (0x01 : Byte) ≠ 0 ∧
    ([] : List Byte).length + ([] : List Byte).length + 6 ≤ (sized 6).maxCapacity :=
  ⟨facing_inv _ _ small_reset_inv, by decide, by decide, by decide⟩

theorem witness_FrameAfterGarbageIsTaken :
    (facing (State.resetWith (sized 6)) (issued (([0x00, 0x3A] ++ wireFrame (sized 6) [0x0A]).map .addb ++ [.getm]) ++ [])).Inv ∧
    (State.resetWith (sized 6)).index = 0 ∧ ([0x0A] : List Byte).length + 5 ≤ (sized 6).maxCapacity ∧
    ∀ g ∈ ([0x00, 0x3A] : List Byte), g ≠ lo8 (sized 6).header := ⟨facing_inv _ _ small_reset_inv, by decide, by decide, by decide⟩

end Sys2Proof.Tests
end

section
/-! PROOFS. The step at each form of the port, and the statements on the step (00_scope.md R12, 30_encoding.md R60). -/

namespace Sys2Proof.Machine

/-- A word that decodes is run as its command (30_encoding.md R69). -/
theorem runWord_of_decode_ok {w : Half} {i : Instr} (hdec : decode w = .ok i) (s : State) :
    runWord w s = exec i s := by
  simp only [runWord, hdec]

/-- With a command word at the port, a step runs that word with the word taken (30_encoding.md R60). -/
theorem step_of_command {s : State} {w : Half} {rest : List HostInput} (hin : s.inputs = .command w :: rest) :
    step s = runWord w { s with inputs := rest } := by
  simp only [step, takeInput_cons s _ rest hin]

/-- With nothing at the port, a step stays (00_scope.md R12). -/
theorem step_of_no_input {s : State} (hin : s.inputs = []) : step s = .next s := by
  simp only [step, takeInput_nil s hin]

/-- Settles O6: the step takes the word from the port, and a word that decodes is run as its command. -/
theorem stepRunsTheDecodedCommand : Obligations.StepRunsTheDecodedCommand := by
  intro s w rest i hin hdec
  calc step s = runWord w { s with inputs := rest } := step_of_command hin
    _ = exec i { s with inputs := rest } := runWord_of_decode_ok hdec _

/-- Settles O8: the port has nothing to take, so the step answers the state itself. -/
theorem stepWithoutInputChangesNothing : Obligations.StepWithoutInputChangesNothing :=
  fun _ hin => step_of_no_input hin

end Sys2Proof.Machine
end

section
/-! PROOFS. What each command may write (10_state.md R22 to R25, 00_scope.md R8), and the statements on the frames. -/

namespace Sys2Proof.Machine

/-- The next states a command may answer from `s`, by the element it writes; a command that only reads adds its
response and nothing else. -/
inductive MayAnswer (s : State) : Instr → State → Prop where
  | crcclr (r : Response) (c : Half) : MayAnswer s .crcclr (answer r (setCrc c s))
  | crcupd (b : Byte) (r : Response) (c : Half) : MayAnswer s (.crcupd b) (answer r (setCrc c s))
  | addb (b : Byte) (r : Response) (j : Byte) : MayAnswer s (.addb b) (answer r (setIndex j (storeByte b s)))
  | getm (r : Response) (j : Byte) (m : Memory) : MayAnswer s .getm (answer r (setIndex j (setOut m s)))
  | prst (r : Response) : MayAnswer s .prst (answer r (setIndex 0 s))
  | read (i : Instr) (r : Response) : MayAnswer s i (answer r s)

/-- The end of an arm is an update of `INDEX` and a response. -/
theorem endArm_eq_answer (c : Cause) (s : State) :
    endArm c s = answer { flag := c.flag, cause := c.code } (setIndex (if c.isResync then 0 else s.index) s) :=
  endArm_eq c s

/-- Every command that answers writes only what its row allows. -/
theorem mayAnswer_of_exec {i : Instr} {s t : State} (h : exec i s = .next t) : MayAnswer s i t := by
  cases i with
  | crcclr => cases h; exact .crcclr _ _
  | crcupd b => cases h; exact .crcupd b _ _
  | crcrd => cases h; exact .read _ _
  | tblrd b => cases h; exact .read _ _
  | addb b =>
    obtain ⟨-, -, rfl⟩ := exec_addb_next b s t h
    rw [endArm_eq_answer]
    exact .addb b _ _
  | getm =>
    obtain ⟨-, rfl⟩ | ⟨-, rfl⟩ := exec_getm_next s t h
    · exact .getm _ 0 s.buf
    · exact .getm _ s.index []
  | prst => cases h; exact .prst _
  | stat => cases h; exact .read _ _
  | rdb b => cases h; exact .read _ _
  | len => cases h; exact .read _ _
  | chk =>
    obtain ⟨-, rfl⟩ := exec_chk_next s t h
    exact .read _ _

/-- Settles O42: each form of the next state leaves the elements that the command's row does not name. -/
theorem onlyTheNamedCommandsWrite : Obligations.OnlyTheNamedCommandsWrite := by
  intro i s t h
  cases mayAnswer_of_exec h with
  | crcclr r c => simp
  | crcupd b r c => simp
  | addb b r j => simp
  | getm r j m => simp
  | prst r => simp
  | read i r => simp

/-- Settles O26: `ADDB` ends its arm from the state with the byte stored, and a read after that store gives the operand at
the store offset and the byte before anywhere else. -/
theorem addbStoresOneByteOnly : Obligations.AddbStoresOneByteOnly := by
  intro s t b hwf h
  obtain ⟨hcfg, hin, hresp, hcrc, -, -, hout⟩ := onlyTheNamedCommandsWrite _ s t h
  have hbuf : t.buf = Memory.write s.cfg s.buf s.index.toNat b := by
    obtain ⟨-, -, rfl⟩ := exec_addb_next b s t h
    simp
  rw [hcfg, hbuf]
  exact ⟨read_write_same _ _ _ _ hwf, fun k hk => read_write_other _ _ _ _ k hwf hk, rfl,
    hcrc (by simp) (by simp), hout (by simp), hin, hresp⟩

/-! ## Independence from `CRC_ACC` and from `OUT` -/

/-- `PENDING` reads the parameters, `INDEX` and `BUF` only (10_state.md R27). -/
theorem pending_congr {s u : State} (hcfg : u.cfg = s.cfg) (hidx : u.index = s.index) (hbuf : u.buf = s.buf) :
    pending u = pending s := by
  simp only [pending, hcfg, hidx, hbuf]

/-- `ADDB` neither reads nor writes `CRC_ACC` and `OUT` (41_stream_parser.md R106, 70_reset_and_hazards.md R196). -/
theorem exec_addb_with_crcAcc_out {b : Byte} {s t : State} (c : Half) (m : Memory) (h : exec (.addb b) s = .next t) :
    exec (.addb b) { s with crcAcc := c, out := m } = .next { t with crcAcc := c, out := m } := by
  obtain ⟨hp, hi, rfl⟩ := exec_addb_next b s t h
  have hp' : pending { s with crcAcc := c, out := m } = false := hp
  rw [exec_addb b _ hp' hi, endArm_eq, endArm_eq]
  rfl

/-- `GETM` does not read or write `CRC_ACC`, and overwrites `OUT` (41_stream_parser.md R104). -/
theorem exec_getm_with_crcAcc_out {s t : State} (c : Half) (m : Memory) (h : exec .getm s = .next t) :
    exec .getm { s with crcAcc := c, out := m } = .next { t with crcAcc := c } := by
  have hp' : pending { s with crcAcc := c, out := m } = pending s := rfl
  rw [exec_getm, hp']
  obtain ⟨hp, rfl⟩ | ⟨hp, rfl⟩ := exec_getm_next s t h
  · rw [if_pos hp]
    rfl
  · rw [hp]
    rfl

/-- Settles O44: `ADDB`, `GETM` and `CHK` by their own lemmas; each other command's equation does not name `CRC_ACC`. -/
theorem parserAndOutputIgnoreTheAccumulator : Obligations.ParserAndOutputIgnoreTheAccumulator := by
  intro i s t c hclr hupd hrd h
  obtain ⟨-, -, -, hcrc, -, -, hout⟩ := onlyTheNamedCommandsWrite i s t h
  refine ⟨hcrc hclr hupd, ?_⟩
  cases i with
  | crcclr => exact absurd rfl hclr
  | crcupd b => exact absurd rfl (hupd b)
  | crcrd => exact absurd rfl hrd
  | addb b => exact (exec_addb_with_crcAcc_out c s.out h).trans (by rw [← hout (by simp)])
  | getm => exact exec_getm_with_crcAcc_out c s.out h
  | chk =>
    obtain ⟨hfits, rfl⟩ := exec_chk_next s t h
    rw [exec_chk, if_pos hfits]
    rfl
  | tblrd b => cases h; rfl
  | prst => cases h; rfl
  | stat => cases h; rfl
  | rdb b => cases h; rfl
  | len => cases h; rfl

/-- Settles O45: `ADDB` and `GETM` by their own lemmas; each other command's equation does not name `OUT`. -/
theorem onlyTheOutputCommandsReadOut : Obligations.OnlyTheOutputCommandsReadOut := by
  intro i s t m hrdb hlen hchk h
  obtain ⟨-, -, -, hcrc, -, -, -⟩ := onlyTheNamedCommandsWrite i s t h
  cases i with
  | rdb b => exact absurd rfl (hrdb b)
  | len => exact absurd rfl hlen
  | chk => exact absurd rfl hchk
  | addb b =>
    exact (exec_addb_with_crcAcc_out s.crcAcc m h).trans (by rw [← hcrc (by simp) (by simp), if_neg (by simp)])
  | getm =>
    exact (exec_getm_with_crcAcc_out s.crcAcc m h).trans (by rw [← hcrc (by simp) (by simp), if_pos rfl])
  | crcclr => cases h; rfl
  | crcupd b => cases h; rfl
  | crcrd => cases h; rfl
  | tblrd b => cases h; rfl
  | prst => cases h; rfl
  | stat => cases h; rfl

end Sys2Proof.Machine
end

section
/-! PROOFS. The sentinel `NONE` (10_state.md R26) and the lifetime of `PENDING` (10_state.md R27). -/

namespace Sys2Proof.Machine

/-! ## The sentinel -/

/-- Every byte of the image past the header is zero (10_state.md R26). -/
theorem read_noneImage_of_two_le (cfg : Config) {k : Nat} (hk : 2 ≤ k) : Memory.read cfg noneImage k = 0 := by
  rw [noneImage, read_nil, noneByte, if_neg (by omega), if_neg (by omega)]

@[simp] theorem frameSize_noneImage (cfg : Config) : frameSize cfg noneImage = 0 := rfl

@[simp] theorem frameBody_noneImage (cfg : Config) : frameBody cfg noneImage = [] := by
  simp [frameBody]

/-- The sentinel's checksum field is the checksum of its empty body. -/
theorem frameVerified_noneImage (cfg : Config) : frameVerified cfg noneImage = true := by
  rw [frameVerified_iff, frameBody_noneImage, frameChecksum, read_noneImage_of_two_le cfg (by decide),
    read_noneImage_of_two_le cfg (by decide)]
  decide

/-- The sentinel's five bytes lie inside every legal array (00_scope.md R9). -/
theorem frameFits_noneImage {cfg : Config} (hlegal : cfg.Legal) : frameFits cfg noneImage = true := by
  have hcap : 6 ≤ cfg.maxCapacity := hlegal.1
  rw [frameFits_iff, frameSize_noneImage]
  exact Nat.le_of_succ_le hcap

/-- Settles O13: the image's bytes by offset; `CHK` finds a frame that fits and verifies. -/
theorem sentinelImageAndItsCheck : Obligations.SentinelImageAndItsCheck := by
  refine ⟨fun cfg => ⟨rfl, rfl, fun k hk => read_noneImage_of_two_le cfg hk⟩, fun s hlegal hout => ?_⟩
  have hfits : frameFits s.cfg s.out = true := hout ▸ frameFits_noneImage hlegal
  have hverified : frameVerified s.cfg s.out = true := hout ▸ frameVerified_noneImage s.cfg
  rw [exec_chk, if_pos hfits, hverified]
  rfl

/-! ## The lifetime of `PENDING` -/

/-- Before the size byte is stored, no byte completes a frame (41_stream_parser.md R102 steps 2 to 4). -/
theorem parserArm_ne_complete_of_lt_five {b : Byte} {s : State} (h : s.index.toNat < 5) :
    parserArm b s ≠ .complete := by
  by_cases h1 : s.index.toNat = 1
  · rw [parserArm_first b s h1]
    split <;> decide
  · by_cases h2 : s.index.toNat = 2
    · rw [parserArm_second b s h2]
      split <;> decide
    · simp [parserArm, headerBlockSize, h1, h2, h]

/-- `PENDING` after an arm: a resync clears it, any other arm leaves `INDEX` and `BUF` as stored. -/
theorem pending_endArm (c : Cause) (s : State) :
    pending (endArm c s) = true ↔ c.isResync = false ∧ pending s = true := by
  rw [pending_iff, pending_iff, endArm_index, endArm_cfg, endArm_buf]
  cases c.isResync <;> simp

/-- With `INDEX` not past the declared frame, an arm that resyncs nothing leaves a frame pending exactly when it is the
arm of completion. -/
theorem parserArm_eq_complete_iff {b : Byte} {s : State}
    (hle : 5 ≤ s.index.toNat → s.index.toNat ≤ (frameSize s.cfg s.buf).toNat + 5) :
    parserArm b s = .complete ↔ (parserArm b s).isResync = false ∧ pending s = true := by
  rw [pending_iff]
  by_cases h5 : 5 ≤ s.index.toNat
  · have hle := hle h5
    rw [parserArm_of_five_le b s h5]
    split_ifs with hsize hmore hcrc
    · exact iff_of_false (by decide) fun ⟨hstay, _⟩ => absurd hstay (by decide)
    · exact iff_of_false (by decide) fun ⟨_, _, heq⟩ => absurd heq (Nat.ne_of_lt hmore)
    · exact iff_of_true rfl ⟨rfl, h5, Nat.le_antisymm hle (Nat.le_of_not_lt hmore)⟩
    · exact iff_of_false (by decide) fun ⟨hstay, _⟩ => absurd hstay (by decide)
  · exact iff_of_false (parserArm_ne_complete_of_lt_five (Nat.lt_of_not_le h5)) fun ⟨_, hfive, _⟩ => h5 hfive

/-- While nothing is pending, the byte stored next lies inside the declared frame: at offset 4 the frame is at least its
header block, and past it the size byte stays and R108 e bounds `INDEX`. -/
theorem storeByte_index_le_of_not_pending {s : State} (b : Byte) (hinv : s.Inv) (hp : pending s = false)
    (h5 : 5 ≤ (storeByte b s).index.toNat) :
    (storeByte b s).index.toNat ≤ (frameSize (storeByte b s).cfg (storeByte b s).buf).toNat + 5 := by
  have hidx : s.index.toNat ≤ s.cfg.maxCapacity := hinv.indexLe
  have hcap : s.cfg.maxCapacity ≤ 254 := hinv.legal.2
  rw [storeByte_index_toNat b s (by omega)] at h5 ⊢
  by_cases h4 : s.index.toNat = 4
  · omega
  · have hsize : frameSize (storeByte b s).cfg (storeByte b s).buf = frameSize s.cfg s.buf :=
      read_write_other _ _ _ _ 4 hinv.bufWf (Ne.symm h4)
    have hle := (hinv.sizeFits (by omega)).2
    have hne : s.index.toNat ≠ (frameSize s.cfg s.buf).toNat + 5 := fun heq =>
      Bool.false_ne_true (hp.symm.trans ((pending_iff s).2 ⟨by omega, heq⟩))
    rw [hsize]
    omega

/-- After an `ADDB`, a frame is pending exactly when the response's flag is 1. -/
theorem pending_after_addb_iff {b : Byte} {s t : State} (hinv : s.Inv) (h : exec (.addb b) s = .next t) :
    pending t = true ↔ t.responses.head?.map Response.flag = some true := by
  obtain ⟨hp, -, rfl⟩ := exec_addb_next b s t h
  rw [pending_endArm, ← parserArm_eq_complete_iff (storeByte_index_le_of_not_pending b hinv hp), endArm_responses]
  simp [Cause.flag]

/-- `GETM` leaves nothing pending. -/
theorem pending_after_getm {s t : State} (h : exec .getm s = .next t) : pending t = false := by
  obtain ⟨-, rfl⟩ | ⟨hp, rfl⟩ := exec_getm_next s t h
  · rfl
  · exact hp

/-- A command that is none of `ADDB`, `GETM` and `PRST` keeps `PENDING`: it writes neither `INDEX` nor `BUF`. -/
theorem pending_after_other {i : Instr} {s t : State} (haddb : ∀ b, i ≠ .addb b) (hgetm : i ≠ .getm) (hprst : i ≠ .prst)
    (h : exec i s = .next t) : pending t = pending s := by
  obtain ⟨hcfg, -, -, -, hidx, hbuf, -⟩ := onlyTheNamedCommandsWrite i s t h
  exact pending_congr hcfg (hidx haddb hgetm hprst) (hbuf haddb)

/-- The derivation of 10_state.md R27, in 9 bits. -/
theorem pending_iff_nine_bits (s : State) : pending s = true ↔
    5 ≤ s.index.toNat ∧ s.index.setWidth 9 = (Memory.read s.cfg s.buf 4).setWidth 9 + 5#9 := by
  simp only [pending, Bool.and_eq_true, decide_eq_true_eq, beq_iff_eq]
  rfl

/-- Settles O35: the derivation, and its lifetime by the commands that write `INDEX` or `BUF`. -/
theorem pendingIsDerivedAndItsLifetime : Obligations.PendingIsDerivedAndItsLifetime := by
  refine ⟨pending_iff_nine_bits, fun s t i hinv h => ?_⟩
  by_cases haddb : ∃ b, i = .addb b
  · obtain ⟨b, rfl⟩ := haddb
    have hp : pending s = false := (exec_addb_next b s t h).1
    simp [pending_after_addb_iff hinv h, hp]
  · by_cases hgetm : i = .getm
    · subst hgetm
      simp [pending_after_getm h]
    · by_cases hprst : i = .prst
      · subst hprst
        cases h
        simp [pending_iff]
      · rw [pending_after_other (not_exists.1 haddb) hgetm hprst h]
        simp [haddb, hgetm, hprst]

end Sys2Proof.Machine
end

section
/-! PROOFS. The read-only commands (20_memory.md R48), and the canonical form of an array's contents (R40, R46). -/

namespace Sys2Proof.Machine

/-- Settles O43: each reading command's response is read from elements that giving a response leaves as they are, so
the command answers it again. -/
theorem readsChangeNothingAndRepeat : Obligations.ReadsChangeNothingAndRepeat := by
  intro i s t hread h
  obtain rfl | ⟨b, rfl⟩ | rfl | ⟨b, rfl⟩ | rfl | rfl := hread
  · cases h
    exact ⟨{ data := s.crcAcc }, rfl, exec_crcrd _⟩
  · cases h
    exact ⟨{ data := table b }, rfl, exec_tblrd b _⟩
  · cases h
    exact ⟨{ flag := pending s, data := s.index.setWidth 16 }, rfl, exec_stat _⟩
  · cases h
    exact ⟨{ data := outOperand s b }, rfl, exec_rdb b _⟩
  · cases h
    exact ⟨{ data := lengthData s.cfg s.out }, rfl, exec_len _⟩
  · obtain ⟨hfits, rfl⟩ := exec_chk_next s t h
    exact ⟨{ flag := frameVerified s.cfg s.out }, rfl, (exec_chk _).trans (if_pos hfits)⟩

/-- The entries of a content in canonical form are the offsets that read other than the image `NONE`, each with the byte
read there. -/
theorem mem_iff_read_eq {cfg : Config} {m : Memory} (hwf : Memory.wf cfg m) (k : Nat) (b : Byte) :
    (k, b) ∈ m ↔ Memory.read cfg m k = b ∧ b ≠ noneByte cfg k := by
  induction m with
  | nil =>
    rw [read_nil]
    simpa using fun hb => hb.symm
  | cons c m ih =>
    obtain ⟨a, v⟩ := c
    obtain ⟨hlt, -, hv, hm⟩ := (wf_cons cfg a v m).1 hwf
    rw [read_cons, List.mem_cons, Prod.mk.injEq, ih hm]
    by_cases hk : k = a
    · subst hk
      have hrest : Memory.read cfg m k = noneByte cfg k :=
        read_eq_noneByte cfg m k fun c hc => (hlt c hc).ne'
      rw [if_pos rfl, hrest]
      constructor
      · rintro (⟨-, rfl⟩ | ⟨hnone, hne⟩)
        · exact ⟨rfl, hv⟩
        · exact absurd hnone.symm hne
      · rintro ⟨rfl, -⟩
        exact .inl ⟨rfl, rfl⟩
    · simp [hk]

/-- In canonical form, an offset past the array reads as the image `NONE`. -/
theorem read_eq_noneByte_of_le {cfg : Config} {m : Memory} (hwf : Memory.wf cfg m) {k : Nat}
    (hk : cfg.maxCapacity ≤ k) : Memory.read cfg m k = noneByte cfg k :=
  read_eq_noneByte cfg m k fun c hc => ((hwf.2 c hc).1.trans_le hk).ne

/-- Settles O46: contents that read alike list the same entries, and rising entries stand in one order only. -/
theorem equalReadsMeanEqualContents : Obligations.EqualReadsMeanEqualContents := by
  intro cfg x y hx hy hinside
  have hread : ∀ k, Memory.read cfg x k = Memory.read cfg y k := fun k => by
    by_cases hk : k < cfg.maxCapacity
    · exact hinside k hk
    · rw [read_eq_noneByte_of_le hx (not_lt.1 hk), read_eq_noneByte_of_le hy (not_lt.1 hk)]
  have hmem : ∀ c, c ∈ x ↔ c ∈ y := fun ⟨k, b⟩ => by
    rw [mem_iff_read_eq hx, mem_iff_read_eq hy, hread]
  have hperm : x.Perm y := (List.perm_ext_iff_of_nodup (hx.1.nodup.of_map _) (hy.1.nodup.of_map _)).2 hmem
  exact hperm.eq_of_pairwise (fun _ _ _ _ hab hba => absurd hab (lt_asymm hba)) (List.pairwise_map.1 hx.1)
    (List.pairwise_map.1 hy.1)

end Sys2Proof.Machine
end

section
/-! PROOFS. The decoder as an equivalence on the two fields of a command word, and the statements on decoding
(30_encoding.md R61, R62, R66, R68, R69). -/

namespace Sys2Proof

/-- The opcodes that R66 assigns; every other one is reserved (30_encoding.md R68). -/
abbrev assignedOpcodes : List Byte := [0x10, 0x11, 0x12, 0x13, 0x20, 0x21, 0x22, 0x23, 0x30, 0x31, 0x32]

/-- The assigned opcodes are those of the commands. -/
theorem mem_assignedOpcodes_iff (op : Byte) : op ∈ assignedOpcodes ↔ ∃ i : Instr, i.opcode = op := by
  constructor
  · intro hmem
    fin_cases hmem
    · exact ⟨.crcclr, rfl⟩
    · exact ⟨.crcupd 0, rfl⟩
    · exact ⟨.crcrd, rfl⟩
    · exact ⟨.tblrd 0, rfl⟩
    · exact ⟨.addb 0, rfl⟩
    · exact ⟨.getm, rfl⟩
    · exact ⟨.prst, rfl⟩
    · exact ⟨.stat, rfl⟩
    · exact ⟨.rdb 0, rfl⟩
    · exact ⟨.len, rfl⟩
    · exact ⟨.chk, rfl⟩
  · rintro ⟨i, rfl⟩
    cases i <;> simp [Instr.opcode]

/-- A format `N` command is emitted with a zero operand byte (30_encoding.md R62). -/
theorem operandByte_of_format_N {i : Instr} (hformat : i.format = .N) : i.operandByte = 0 := by
  cases i with
  | crcupd b | tblrd b | addb b | rdb b => cases hformat
  | crcclr | crcrd | getm | prst | stat | len | chk => rfl

/-- A word with a command's opcode decodes to that command, whatever its operand byte is in format `N`
(30_encoding.md R69). -/
theorem decode_commandWord_opcode {i : Instr} {imm : Byte} (himm : i.format = .I → imm = i.operandByte) :
    decode (commandWord i.opcode imm) = .ok i := by
  cases i with
  | crcupd b | tblrd b | addb b | rdb b =>
    rw [himm rfl]
    exact decode_commandWord _ b
  | crcclr | crcrd | getm | prst | stat | len | chk => exact decode_commandWord _ imm

/-- A word with an assigned opcode decodes. -/
theorem exists_decode_of_opcode (i : Instr) (imm : Byte) : ∃ j, decode (commandWord i.opcode imm) = .ok j := by
  cases i <;> exact ⟨_, decode_commandWord _ imm⟩

/-- The words that decode to a command, by their two fields. -/
theorem decode_eq_ok_iff (w : Half) (i : Instr) :
    decode w = .ok i ↔ opField w = i.opcode ∧ (i.format = .I → imm8Field w = i.operandByte) := by
  constructor
  · intro hdec
    rw [← commandWord_fields w] at hdec
    exact decode_ok _ _ i hdec
  · rintro ⟨hop, himm⟩
    rw [← commandWord_fields w, hop]
    exact decode_commandWord_opcode himm

/-- The decoder has one error, which names the opcode of the word. -/
theorem eq_reservedOpcode_of_decode_error {w : Half} {e : DecodeError} (hdec : decode w = .error e) :
    e = .reservedOpcode (opField w) := by
  unfold decode at hdec
  split at hdec <;> cases hdec
  rfl

/-- The words that decode to no command are those with a reserved opcode. -/
theorem decode_eq_error_iff (w : Half) :
    decode w = .error (.reservedOpcode (opField w)) ↔ opField w ∉ assignedOpcodes := by
  rw [mem_assignedOpcodes_iff]
  constructor
  · rintro herr ⟨i, hop⟩
    obtain ⟨j, hok⟩ := exists_decode_of_opcode i (imm8Field w)
    rw [hop, commandWord_fields, herr] at hok
    cases hok
  · intro hreserved
    cases hdec : decode w with
    | ok i => exact absurd ⟨i, ((decode_eq_ok_iff w i).1 hdec).1.symm⟩ hreserved
    | error e => rw [eq_reservedOpcode_of_decode_error hdec]

/-- A command is what its encoding decodes to. -/
@[simp] theorem decode_encode (i : Instr) : decode (encode i) = .ok i :=
  decode_commandWord_opcode fun _ => rfl

/-- The mask of format `N` on any word. -/
theorem mask_eq_commandWord (w : Half) : w &&& 0xFF00 = commandWord (opField w) 0 := by
  rw [← commandWord_mask (opField w) (imm8Field w), commandWord_fields]

/-- Settles O1: the fields of an encoded word are those of its command, and a word that decodes has the fields of its
command but for the operand byte that format `N` ignores. -/
theorem decodeEncodeAgree : Obligations.DecodeEncodeAgree := by
  refine ⟨fun i _ => decode_encode i, fun w i hdec => ?_⟩
  obtain ⟨hop, himm⟩ := (decode_eq_ok_iff w i).1 hdec
  cases hformat : i.format with
  | I => rw [encode, ← hop, ← himm hformat, commandWord_fields]
  | N => rw [encode, ← hop, operandByte_of_format_N hformat, mask_eq_commandWord]

/-- Settles O2: the two equivalences of the decoder, for its commands and for its error. -/
theorem decoderTotalOnEveryWord : Obligations.DecoderTotalOnEveryWord :=
  ⟨decode_eq_ok_iff, fun w => (decode_eq_error_iff w).symm⟩

end Sys2Proof

namespace Sys2Proof.Machine

/-- A word that does not decode is refused by its opcode (30_encoding.md R68). -/
theorem runWord_of_decode_error {w : Half} {op : Byte} (hdec : decode w = .error (.reservedOpcode op)) (s : State) :
    runWord w s = .refused (.reservedOpcode op) := by
  simp only [runWord, hdec]

/-- Settles O7: the step runs the word at the port, and a reserved opcode does not decode. -/
theorem stepRefusesReservedOpcodes : Obligations.StepRefusesReservedOpcodes := by
  intro s w rest hin hreserved
  calc step s = runWord w { s with inputs := rest } := step_of_command hin
    _ = .refused (.reservedOpcode (opField w)) := runWord_of_decode_error ((decode_eq_error_iff w).2 hreserved) _

end Sys2Proof.Machine
end

section
/-! PROOFS. The response word and its three fields (30_encoding.md R64, 60_exceptions.md R173). -/

namespace Sys2Proof.Machine

/-- The bits of the response word. -/
theorem getLsbD_word (r : Response) (j : Nat) :
    r.word.getLsbD j =
      if j < 16 then r.data.getLsbD j
      else if j - 16 < 3 then r.cause.getLsbD (j - 16)
      else (BitVec.ofBool r.flag).getLsbD (j - 16 - 3) :=
  BitVec.getLsbD_append.trans (by rw [BitVec.getLsbD_append])

theorem word_flag (r : Response) : r.word.getLsbD 19 = r.flag := by
  rw [getLsbD_word]
  simp

theorem word_cause (r : Response) : r.word.extractLsb' 16 3 = r.cause := by
  apply BitVec.eq_of_getLsbD_eq
  intro j hj
  rw [BitVec.getLsbD_extractLsb', getLsbD_word]
  simp [hj]

theorem word_data (r : Response) : r.word.extractLsb' 0 16 = r.data := by
  apply BitVec.eq_of_getLsbD_eq
  intro j hj
  rw [BitVec.getLsbD_extractLsb', getLsbD_word]
  simp [hj]

/-- Every command but `ADDB` answers one response with cause 0 (60_exceptions.md R173). -/
theorem cause_of_exec {i : Instr} {s t : State} (h : exec i s = .next t) (haddb : ∀ b, i ≠ .addb b) :
    ∃ r, t.responses = r :: s.responses ∧ r.cause = 0 := by
  cases i with
  | addb b => exact absurd rfl (haddb b)
  | getm =>
    obtain ⟨-, rfl⟩ | ⟨-, rfl⟩ := exec_getm_next s t h
    · exact ⟨_, rfl, rfl⟩
    · exact ⟨_, rfl, rfl⟩
  | chk =>
    obtain ⟨-, rfl⟩ := exec_chk_next s t h
    exact ⟨_, rfl, rfl⟩
  | crcclr | crcrd | prst | stat | len | crcupd b | tblrd b | rdb b =>
    cases h
    exact ⟨_, rfl, rfl⟩

/-- Settles O4: the fields bit by bit, and the responses of the other ten commands. -/
theorem responseWordFields : Obligations.ResponseWordFields :=
  ⟨fun r => ⟨word_flag r, word_cause r, word_data r⟩, fun _ _ _ h haddb => cause_of_exec h haddb⟩

end Sys2Proof.Machine
end

section
/-! PROOFS. The pseudo-commands: their expansions, and the commands of `CRC16` one after the other (30_encoding.md R71,
40_crc_engine.md R83). -/

namespace Sys2Proof.Machine

/-- A list of commands goes on from the state its first command answers (20_memory.md R49). -/
theorem execAll_cons {i : Instr} {s t : State} (is : List Instr) (h : exec i s = .next t) :
    execAll (i :: is) s = execAll is t := by
  simp only [execAll, h]

/-- One `CRCUPD` per byte folds the bytes into `CRC_ACC` in order, with one empty response each (40_crc_engine.md R85). -/
theorem execAll_crcupds (bs : List Byte) (is : List Instr) (s : State) :
    execAll (bs.map .crcupd ++ is) s =
      execAll is { s with
        crcAcc := bs.foldl crcStep s.crcAcc
        responses := List.replicate bs.length ⟨false, 0, 0⟩ ++ s.responses } := by
  induction bs generalizing s with
  | nil => rfl
  | cons b bs ih =>
    rw [List.map_cons, List.cons_append, execAll_cons _ (exec_crcupd b s), ih]
    simp [List.replicate_succ', answer, setCrc]

/-- The commands of `CRC16` return the checksum of the operands and leave it in `CRC_ACC` (40_crc_engine.md R83). -/
theorem execAll_expandCrc16 (bs : List Byte) (s : State) :
    execAll (expandCrc16 bs) s =
      .next { s with
        crcAcc := crc16 bs
        responses := ⟨false, 0, crc16 bs⟩ :: (List.replicate (bs.length + 1) ⟨false, 0, 0⟩ ++ s.responses) } := by
  rw [expandCrc16, execAll_cons _ (exec_crcclr s), execAll_crcupds, execAll_cons _ (exec_crcrd _)]
  simp [execAll, List.replicate_succ', answer, setCrc, crc16, crcInit]

/-- A pseudo-command with byte operands is well formed, however many they are (30_encoding.md R71). -/
theorem wellFormed_of_any {n : AsmName} {ops : List Nat} (hname : n.operandCount = .any) (hops : ∀ k ∈ ops, k < 256) :
    AsmLine.wellFormed ⟨n, ops⟩ = true := by
  simpa [AsmLine.wellFormed, hname, OperandCount.admits] using hops

/-- Settles O23: a well-formed line expands by its name, and the commands of `CRC16` are run one after the other. -/
theorem pseudoCommandsExpand : Obligations.PseudoCommandsExpand := by
  refine ⟨fun ops hops => ⟨?_, ?_⟩, execAll_expandCrc16⟩
  · simp [AsmLine.expand, wellFormed_of_any (n := .crc16) rfl hops, expandCrc16]
  · simp [AsmLine.expand, wellFormed_of_any (n := .feed) rfl hops, expandFeed]

end Sys2Proof.Machine
end

section
/-! PROOFS. Assembling the text of a command (30_encoding.md R70): the rules for cutting a line into words, and the
round trip. -/

namespace Sys2Proof.Machine

/-- The characters that stand in a name or a number: no blank, no comma, no start of a comment (30_encoding.md R70). -/
def isWordChar (c : Char) : Bool := !isBlank c && c != ';' && c != ','

theorem isBlank_of_isWordChar {c : Char} (h : isWordChar c = true) : isBlank c = false := by
  cases hblank : isBlank c with
  | false => rfl
  | true => simp [isWordChar, hblank] at h

theorem ne_semicolon_of_isWordChar {c : Char} (h : isWordChar c = true) : c ≠ ';' := by
  rintro rfl
  exact absurd h (by decide)

theorem ne_comma_of_isWordChar {c : Char} (h : isWordChar c = true) : c ≠ ',' := by
  rintro rfl
  exact absurd h (by decide)

theorem isWordChar_of_mem_spelling (n : AsmName) : ∀ c ∈ spelling n, isWordChar c = true :=
  List.all_eq_true.1 (by cases n <;> decide)

theorem spelling_ne_nil (n : AsmName) : spelling n ≠ [] := by
  cases n <;> decide

theorem isWordChar_of_mem_digits : ∀ c ∈ digits, isWordChar c = true :=
  List.all_eq_true.1 (by decide)

theorem hexDigit_mem_digits {n : Nat} (h : n < 16) : hexDigit n ∈ digits := by
  rw [hexDigit, List.getD_eq_getElem digits '0' h]
  exact List.getElem_mem h

theorem isWordChar_of_mem_renderByte (b : Byte) : ∀ c ∈ renderByte b, isWordChar c = true := by
  have high : hexDigit (b.toNat / 16) ∈ digits := hexDigit_mem_digits (Nat.div_lt_of_lt_mul b.isLt)
  have low : hexDigit (b.toNat % 16) ∈ digits := hexDigit_mem_digits (Nat.mod_lt _ (by decide))
  simp only [renderByte, List.forall_mem_cons]
  exact ⟨by decide, by decide, isWordChar_of_mem_digits _ high, isWordChar_of_mem_digits _ low, by simp⟩

/-- Text that neither begins nor ends with a blank is trimmed already. -/
theorem trimBlanks_eq_self {cs : List Char} (hne : cs ≠ []) (hfirst : isBlank (cs.head hne) = false)
    (hlast : isBlank (cs.getLast hne) = false) : trimBlanks cs = cs := by
  have hdrop : cs.dropWhile isBlank = cs := by
    rw [← List.cons_head_tail hne, List.dropWhile_cons_of_neg (by simp [hfirst])]
  rw [trimBlanks, hdrop]
  exact List.rdropWhile_eq_self_iff.2 fun _ => by simp [hlast]

/-- A word is trimmed already. -/
theorem trimBlanks_word {cs : List Char} (hword : ∀ c ∈ cs, isWordChar c = true) : trimBlanks cs = cs := by
  by_cases hne : cs = []
  · rw [hne]
    rfl
  · exact trimBlanks_eq_self hne (isBlank_of_isWordChar (hword _ (List.head_mem hne)))
      (isBlank_of_isWordChar (hword _ (List.getLast_mem hne)))

/-- A word has no comma to be cut at. -/
theorem cutAt_word {cs : List Char} (hword : ∀ c ∈ cs, isWordChar c = true) : cutAt ',' cs = [cs] := by
  induction cs with
  | nil => rfl
  | cons c cs ih =>
    obtain ⟨hc, hcs⟩ := List.forall_mem_cons.1 hword
    simp [cutAt, ne_comma_of_isWordChar hc, ih hcs]

/-- No other name has a name's spelling. -/
theorem find_spelling (n : AsmName) : allNames.find? (fun m => spelling m == spelling n) = some n := by
  cases n <;> decide

/-- A word that ends where the text ends or at a blank is read as the first word of the text. -/
theorem takeWhile_word_append {cs tail : List Char} (hword : ∀ c ∈ cs, isWordChar c = true)
    (htail : ∀ c ∈ tail.head?, isBlank c = true) :
    (cs ++ tail).takeWhile (fun c => !isBlank c) = cs := by
  rw [List.takeWhile_append_of_pos fun c hc => by simp [isBlank_of_isWordChar (hword c hc)]]
  cases tail with
  | nil => simp
  | cons c tail => simp [htail c rfl]

theorem dropWhile_word_append {cs tail : List Char} (hword : ∀ c ∈ cs, isWordChar c = true)
    (htail : ∀ c ∈ tail.head?, isBlank c = true) :
    (cs ++ tail).dropWhile (fun c => !isBlank c) = tail := by
  rw [List.dropWhile_append_of_pos fun c hc => by simp [isBlank_of_isWordChar (hword c hc)]]
  cases tail with
  | nil => rfl
  | cons c tail => simp [htail c rfl]

/-- A trimmed line without a comment, cut into its name and its operands. -/
theorem assembleLine_spelling_append {n : AsmName} {tail : List Char} {ops : List Nat}
    (hcomment : ';' ∉ tail) (htail : ∀ c ∈ tail.head?, isBlank c = true)
    (htrim : trimBlanks (spelling n ++ tail) = spelling n ++ tail) (hops : parseOperands tail = some ops) :
    assembleLine (spelling n ++ tail) = AsmLine.expand ⟨n, ops⟩ := by
  have hname := isWordChar_of_mem_spelling n
  have hline : (spelling n ++ tail).takeWhile (· != ';') = spelling n ++ tail := by
    rw [List.takeWhile_eq_self_iff]
    intro c hc
    rcases List.mem_append.1 hc with hc | hc
    · simpa using ne_semicolon_of_isWordChar (hname c hc)
    · simpa using fun e : c = ';' => hcomment (e ▸ hc)
  simp only [assembleLine, hline, htrim]
  split
  · next hnil => exact absurd (List.append_eq_nil_iff.1 hnil).1 (spelling_ne_nil n)
  · simp only [takeWhile_word_append hname htail, dropWhile_word_append hname htail, find_spelling, hops]

/-- A line that is a name alone. -/
theorem assembleLine_spelling (n : AsmName) : assembleLine (spelling n) = AsmLine.expand ⟨n, []⟩ := by
  have htrim : trimBlanks (spelling n ++ []) = spelling n ++ [] := by
    rw [List.append_nil]
    exact trimBlanks_word (isWordChar_of_mem_spelling n)
  simpa using assembleLine_spelling_append (by simp) (by simp) htrim rfl

/-- The operand of a written line, read. -/
theorem parseOperands_renderByte (b : Byte) : parseOperands (' ' :: renderByte b) = some [b.toNat] := by
  have hword := isWordChar_of_mem_renderByte b
  have htrim : trimBlanks (' ' :: renderByte b) = renderByte b := trimBlanks_word hword
  rw [parseOperands, htrim]
  split
  · next hnil => cases hnil
  · rw [cutAt_word hword]
    simp [trimBlanks_word hword]

/-- A line that is a name and a byte operand. -/
theorem assembleLine_spelling_renderByte (n : AsmName) (b : Byte) :
    assembleLine (spelling n ++ ' ' :: renderByte b) = AsmLine.expand ⟨n, [b.toNat]⟩ := by
  have hword := isWordChar_of_mem_renderByte b
  refine assembleLine_spelling_append ?_ (by simp [isBlank]) ?_ (parseOperands_renderByte b)
  · simpa using fun hc => ne_semicolon_of_isWordChar (hword _ hc) rfl
  · refine trimBlanks_eq_self (by simp) ?_ ?_
    · rw [List.head_append_of_ne_nil (spelling_ne_nil n)]
      exact isBlank_of_isWordChar (isWordChar_of_mem_spelling n _ (List.head_mem _))
    · have hlast : (spelling n ++ ' ' :: renderByte b).getLast (by simp) = hexDigit (b.toNat % 16) := by
        simp [renderByte]
      rw [hlast]
      exact isBlank_of_isWordChar (hword _ (by simp [renderByte]))

/-- Settles O5: a format `N` command's text is its name, a format `I` command's text is its name and the operand byte, and
each such line expands to the command. -/
theorem assemblingRenderedTextGivesTheCommand : Obligations.AssemblingRenderedTextGivesTheCommand := by
  intro i
  cases i with
  | crcclr | crcrd | getm | prst | stat | len | chk =>
    rw [renderInstr, assembleLine_spelling]
    rfl
  | crcupd b | tblrd b | addb b | rdb b =>
    rw [renderInstr, assembleLine_spelling_renderByte]
    simp [AsmLine.expand, AsmLine.wellFormed, AsmName.operandCount, OperandCount.admits, AsmLine.firstByte, b.isLt]

end Sys2Proof.Machine
end

section
/-! PROOFS. The table, the byte step and the laws of the checksum (40_crc_engine.md R80, R82, R88, R89). -/

namespace Sys2Proof.Machine

/-! ## The table and the byte step -/

/-- Eight conditional shifts, counted (40_crc_engine.md R80). -/
theorem iterate_shiftStep_eight (c : Half) : shiftStep^[8] c = shiftByte c := rfl

/-- Settles O14: the table is defined by the eight shifts of its index. -/
theorem tableEntriesAreEightShifts : Obligations.TableEntriesAreEightShifts :=
  fun i => (iterate_shiftStep_eight (i.setWidth 16)).symm

/-- Settles O15: the shift is linear, so the eight shifts act on the two bytes of the word apart; the high byte only moves
down, and the low byte becomes its table entry. -/
theorem byteStepWithoutTheTable : Obligations.ByteStepWithoutTheTable :=
  fun c b => ⟨rfl, (crcStep_eq_shiftByte c b).trans (iterate_shiftStep_eight _).symm⟩

/-! ## Linearity -/

theorem table_xor (i j : Byte) : table (i ^^^ j) = table i ^^^ table j := by
  rw [table, BitVec.setWidth_xor, shiftByte_xor, table, table]

@[simp] theorem table_zero : table 0 = 0 := shiftByte_zero

/-- The fold of the byte step is linear in the start value and the bytes together. -/
theorem foldl_crcStep_xor {x y : List Byte} (hlen : x.length = y.length) (c d : Half) :
    (List.zipWith (· ^^^ ·) x y).foldl crcStep (c ^^^ d) = x.foldl crcStep c ^^^ y.foldl crcStep d := by
  induction x generalizing y c d with
  | nil =>
    obtain rfl : y = [] := List.eq_nil_of_length_eq_zero hlen.symm
    rfl
  | cons a x ih =>
    cases y with
    | nil => cases hlen
    | cons b y =>
      rw [List.zipWith_cons_cons, List.foldl_cons, List.foldl_cons, List.foldl_cons, crcStep_xor,
        ih (Nat.succ.inj hlen)]

/-- Settles O16: both start values are zero, and so is their exclusive or. -/
theorem checksumIsLinear : Obligations.ChecksumIsLinear :=
  ⟨table_xor, table_zero, fun _ _ hlen => foldl_crcStep_xor hlen crcInit crcInit⟩

/-! ## Bytes that cancel, and zero bytes -/

/-- A byte folded into its own value cancels. -/
theorem crcStep_setWidth_self (b : Byte) : crcStep (b.setWidth 16) b = 0 := by
  rw [crcStep_eq_shiftByte, BitVec.xor_self]
  exact shiftByte_zero

@[simp] theorem crcStep_zero_zero : crcStep 0 0 = 0 := crcStep_setWidth_self 0

@[simp] theorem crc16_replicate_zero (n : Nat) : crc16 (List.replicate n 0) = 0 := by
  induction n with
  | zero => rfl
  | succ n ih => rw [List.replicate_succ', crc16_concat, ih, crcStep_zero_zero]

theorem crc16_replicate_zero_append (n : Nat) (m : List Byte) : crc16 (List.replicate n 0 ++ m) = crc16 m := by
  rw [crc16_append, crc16_replicate_zero]
  rfl

/-- A body of zero bytes has a zero checksum field (20_memory.md R41). -/
theorem wireFrame_replicate_zero (cfg : Config) (n : Nat) :
    wireFrame cfg (List.replicate n 0) =
      [lo8 cfg.header, hi8 cfg.header, 0, 0, BitVec.ofNat 8 n] ++ List.replicate n 0 := by
  rw [wireFrame, crc16_replicate_zero, List.length_replicate]
  rfl

/-- Settles O17: zero bytes keep the zero start value, and the two frames are those of one zero byte and of none. -/
theorem leadingZerosDoNotCount : Obligations.LeadingZerosDoNotCount :=
  ⟨crc16_replicate_zero_append, crc16_replicate_zero,
    fun cfg => ⟨wireFrame_replicate_zero cfg 1, wireFrame_replicate_zero cfg 0⟩⟩

/-! ## The residue -/

/-- The low byte of a word folded into it cancels, and the high byte moves down. -/
theorem crcStep_lo8_self (c : Half) : crcStep c (lo8 c) = (hi8 c).setWidth 16 := by
  have hcancel : c ^^^ (lo8 c).setWidth 16 = hi8 c ++ (0 : Byte) :=
    calc c ^^^ (lo8 c).setWidth 16
        = ((hi8 c ++ (0 : Byte)) ^^^ (lo8 c).setWidth 16) ^^^ (lo8 c).setWidth 16 :=
          congrArg (· ^^^ (lo8 c).setWidth 16) (half_split c)
      _ = hi8 c ++ (0 : Byte) := by rw [BitVec.xor_assoc, BitVec.xor_self, BitVec.xor_zero]
  rw [crcStep_eq_shiftByte, hcancel, shiftByte_high]

/-- Settles O18: the first checksum byte leaves the second as the running value, and the second cancels it. -/
theorem checksumResidueIsZero : Obligations.ChecksumResidueIsZero := by
  intro m
  calc crc16 (m ++ [lo8 (crc16 m), hi8 (crc16 m)])
      = crcStep (crcStep (crc16 m) (lo8 (crc16 m))) (hi8 (crc16 m)) := crc16_append _ _
    _ = crcStep ((hi8 (crc16 m)).setWidth 16) (hi8 (crc16 m)) := by rw [crcStep_lo8_self]
    _ = 0 := crcStep_setWidth_self _

end Sys2Proof.Machine
end

section
/-! PROOFS. The checksum engine's commands (40_crc_engine.md R84 to R87): their words, their effect, and the accumulator
along a list of commands. -/

namespace Sys2Proof

/-- A command's opcode with any byte in the low bits is a word of that command; in format `I` the byte is its operand
(30_encoding.md R62, R69). -/
theorem decode_or_of_opcode {i : Instr} {b : Byte} (op : Byte) (hop : i.opcode = op)
    (hoperand : i.format = .I → b = i.operandByte) : decode (commandWord op 0 ||| b.setWidth 16) = .ok i := by
  rw [commandWord_or, ← hop]
  exact decode_commandWord_opcode hoperand

end Sys2Proof

namespace Sys2Proof.Machine

/-- Settles O19: the word has the opcode of `CRCCLR`, whose equation is `exec_crcclr`. -/
theorem crcclrClearsTheAccumulator : Obligations.CrcclrClearsTheAccumulator :=
  ⟨fun _ => decode_or_of_opcode 0x10 rfl nofun, exec_crcclr⟩

/-- Settles O20: the word has the opcode of `CRCUPD`, whose equation folds by `crcStep`. -/
theorem crcupdFoldsOneByte : Obligations.CrcupdFoldsOneByte :=
  ⟨fun b => decode_or_of_opcode 0x11 rfl fun _ => rfl, fun s b => exec_crcupd b s, by decide, by decide⟩

/-- Settles O22: the word has the opcode of `TBLRD`, whose equation is `exec_tblrd`. -/
theorem tblrdReadsOneEntry : Obligations.TblrdReadsOneEntry :=
  ⟨fun b => decode_or_of_opcode 0x13 rfl fun _ => rfl, fun s i => exec_tblrd i s, by decide, by decide⟩

/-! ## The accumulator along a list of commands -/

/-- A list of commands that answers a next state has a first command that does. -/
theorem execAll_cons_next {i : Instr} {is : List Instr} {s t : State} (h : execAll (i :: is) s = .next t) :
    ∃ u, exec i s = .next u ∧ execAll is u = .next t := by
  rw [execAll] at h
  split at h
  · next u hu => exact ⟨u, hu, h⟩
  · cases h
  · cases h

/-- A command other than `CRCUPD` folds no byte in. -/
theorem foldedBytes_cons_of_ne {i : Instr} (hupd : ∀ b, i ≠ .crcupd b) (is : List Instr) :
    foldedBytes (i :: is) = foldedBytes is := by
  cases i with
  | crcupd b => exact absurd rfl (hupd b)
  | crcclr | crcrd | getm | prst | stat | len | chk | tblrd b | addb b | rdb b => rfl

/-- Without a `CRCCLR`, commands fold into `CRC_ACC` the bytes of the `CRCUPD`s among them, in order; the other commands
leave it alone (10_state.md R22). -/
theorem crcAcc_of_execAll {is : List Instr} {s t : State} (hclr : ∀ i ∈ is, i ≠ .crcclr)
    (h : execAll is s = .next t) : t.crcAcc = (foldedBytes is).foldl crcStep s.crcAcc := by
  induction is generalizing s with
  | nil =>
    cases h
    rfl
  | cons i is ih =>
    obtain ⟨hi, his⟩ := List.forall_mem_cons.1 hclr
    obtain ⟨u, hu, hrest⟩ := execAll_cons_next h
    rw [ih his hrest]
    by_cases hupd : ∃ b, i = .crcupd b
    · obtain ⟨b, rfl⟩ := hupd
      cases hu
      rfl
    · have hupd : ∀ b, i ≠ .crcupd b := not_exists.1 hupd
      obtain ⟨-, -, -, hcrc, -⟩ := onlyTheNamedCommandsWrite i s u hu
      rw [foldedBytes_cons_of_ne hupd, hcrc hi hupd]

/-- Settles O21: after `CRCCLR` the accumulator is the start value of the checksum, the commands fold their bytes into it,
and `CRCRD` reads it. -/
theorem crcrdReturnsTheChecksumOfTheRange : Obligations.CrcrdReturnsTheChecksumOfTheRange := by
  refine ⟨fun _ => decode_or_of_opcode 0x12 rfl nofun, exec_crcrd, fun is s t hclr h => ?_, by decide⟩
  rw [execAll_cons is (exec_crcclr s)] at h
  have hcrc : t.crcAcc = crc16 (foldedBytes is) := crcAcc_of_execAll hclr h
  rw [← hcrc]
  exact exec_crcrd t

end Sys2Proof.Machine
end

section
/-! PROOFS. The invariant of 41_stream_parser.md R108: the updates of State that keep it, the contents that `OUT` may take,
and the step lemma. -/

namespace Sys2Proof.Machine

/-! ## The contents that may stand in `OUT` -/

/-- An array's content as R108 g asks it of `OUT`: in canonical form, a frame with the block's header that lies inside the
array and carries the checksum of its body. -/
structure IsMessage (cfg : Config) (m : Memory) : Prop where
  wf : Memory.wf cfg m
  header : frameHeader cfg m = cfg.header
  fits : (frameSize cfg m).toNat + 5 ≤ cfg.maxCapacity
  verified : frameVerified cfg m = true

theorem isMessage_out {s : State} (hinv : s.Inv) : IsMessage s.cfg s.out :=
  ⟨hinv.outWf, hinv.outHeader, hinv.outFits, hinv.outVerified⟩

/-- With legal parameters, the sentinel is a message (10_state.md R26). -/
theorem isMessage_noneImage {cfg : Config} (hlegal : cfg.Legal) : IsMessage cfg noneImage where
  wf := wf_noneImage cfg
  header := le16_lo8_hi8 cfg.header
  fits := (frameFits_iff cfg noneImage).1 (frameFits_noneImage hlegal)
  verified := frameVerified_noneImage cfg

/-- A pending frame is a message (41_stream_parser.md R108 c to f). -/
theorem isMessage_of_pending {s : State} (hinv : s.Inv) (hp : pending s = true) : IsMessage s.cfg s.buf := by
  have h5 : 5 ≤ s.index.toNat := ((pending_iff s).1 hp).1
  exact {
    wf := hinv.bufWf
    header := (le16_eq_iff _ _ _).2 ⟨hinv.lowHeader (by omega), hinv.highHeader (by omega)⟩
    fits := (hinv.sizeFits h5).1
    verified := hinv.pendingVerified hp }

/-! ## Updates that keep the invariant -/

/-- R108 speaks of the parameters, `INDEX`, `BUF` and `OUT` only. -/
theorem inv_congr {s u : State} (hinv : s.Inv) (hcfg : u.cfg = s.cfg) (hidx : u.index = s.index)
    (hbuf : u.buf = s.buf) (hout : u.out = s.out) : u.Inv := by
  cases s
  cases u
  cases hcfg
  cases hidx
  cases hbuf
  cases hout
  exact ⟨hinv.legal, hinv.bufWf, hinv.outWf, hinv.indexLe, hinv.lowHeader, hinv.highHeader, hinv.sizeFits,
    hinv.pendingVerified, hinv.outHeader, hinv.outFits, hinv.outVerified⟩

/-- With `INDEX = 0` the parser's clauses ask nothing of the bytes in `BUF`. -/
theorem inv_of_index_zero {s : State} (hidx : s.index = 0) (hlegal : s.cfg.Legal) (hbuf : Memory.wf s.cfg s.buf)
    (hout : IsMessage s.cfg s.out) : s.Inv where
  legal := hlegal
  bufWf := hbuf
  outWf := hout.wf
  indexLe := by simp [hidx]
  lowHeader := by simp [hidx]
  highHeader := by simp [hidx]
  sizeFits := by simp [hidx]
  pendingVerified := by simp [pending_iff, hidx]
  outHeader := hout.header
  outFits := hout.fits
  outVerified := hout.verified

theorem inv_setOut {s : State} {m : Memory} (hinv : s.Inv) (hm : IsMessage s.cfg m) : (setOut m s).Inv :=
  ⟨hinv.legal, hinv.bufWf, hm.wf, hinv.indexLe, hinv.lowHeader, hinv.highHeader, hinv.sizeFits, hinv.pendingVerified,
    hm.header, hm.fits, hm.verified⟩

theorem inv_answer {s : State} (r : Response) (hinv : s.Inv) : (answer r s).Inv := inv_congr hinv rfl rfl rfl rfl

theorem inv_setIndex_zero {s : State} (hinv : s.Inv) : (setIndex 0 s).Inv :=
  inv_of_index_zero rfl hinv.legal hinv.bufWf (isMessage_out hinv :)

theorem inv_of_inputs {s : State} (inputs : List HostInput) (hinv : s.Inv) : State.Inv { s with inputs := inputs } :=
  inv_congr hinv rfl rfl rfl rfl

/-- The reset values meet R108 (70_reset_and_hazards.md R191). -/
theorem inv_resetWith {cfg : Config} (hlegal : cfg.Legal) : (State.resetWith cfg).Inv :=
  inv_of_index_zero rfl hlegal (wf_nil cfg) (isMessage_noneImage hlegal)

/-- Settles O47: the reset values meet R108, and the host's inputs are no part of it. -/
theorem invariantHoldsAfterReset : Obligations.InvariantHoldsAfterReset :=
  ⟨fun _ inputs hlegal => inv_of_inputs inputs (inv_resetWith hlegal), inv_resetWith (by decide)⟩

theorem inv_applyReset {s : State} (hinv : s.Inv) : (applyReset s).Inv :=
  inv_congr (inv_resetWith hinv.legal) rfl rfl rfl rfl

/-! ## The store of `ADDB` -/

/-- While nothing is pending, `INDEX` is an offset of `BUF` (41_stream_parser.md R108 b). -/
theorem index_lt_of_not_pending {s : State} (hinv : s.Inv) (hp : pending s = false) :
    s.index.toNat < s.cfg.maxCapacity := by
  by_cases h5 : 5 ≤ s.index.toNat
  · obtain ⟨hfits, hle⟩ := hinv.sizeFits h5
    have hne : s.index.toNat ≠ (frameSize s.cfg s.buf).toNat + 5 := fun heq =>
      Bool.false_ne_true (hp.symm.trans ((pending_iff s).2 ⟨h5, heq⟩))
    omega
  · have hcap : 6 ≤ s.cfg.maxCapacity := hinv.legal.1
    omega

/-- Under R108 the counter never wraps (41_stream_parser.md R117 a). -/
theorem storeByte_index_toNat_of_inv {s : State} (b : Byte) (hinv : s.Inv) :
    (storeByte b s).index.toNat = s.index.toNat + 1 := by
  have hle : s.index.toNat ≤ s.cfg.maxCapacity := hinv.indexLe
  have hcap : s.cfg.maxCapacity ≤ 254 := hinv.legal.2
  exact storeByte_index_toNat b s (by omega)

/-- A read of `BUF` after the store. -/
theorem read_storeByte {s : State} (b : Byte) (hwf : Memory.wf s.cfg s.buf) (k : Nat) :
    Memory.read (storeByte b s).cfg (storeByte b s).buf k =
      if k = s.index.toNat then b else Memory.read s.cfg s.buf k :=
  read_write _ _ _ _ _ hwf

/-! ## What an arm without a resync says of the stored bytes -/

theorem eq_lo8_of_first_stays {b : Byte} {s : State} (h1 : s.index.toNat = 1)
    (hstay : (parserArm b s).isResync = false) : b = lo8 s.cfg.header := by
  rw [parserArm_first b s h1] at hstay
  split at hstay
  · assumption
  · cases hstay

theorem frameHeader_eq_of_second_stays {b : Byte} {s : State} (h2 : s.index.toNat = 2)
    (hstay : (parserArm b s).isResync = false) : frameHeader s.cfg s.buf = s.cfg.header := by
  rw [parserArm_second b s h2] at hstay
  split at hstay
  · assumption
  · cases hstay

theorem size_fits_of_stays {b : Byte} {s : State} (h5 : 5 ≤ s.index.toNat)
    (hstay : (parserArm b s).isResync = false) : (frameSize s.cfg s.buf).toNat + 5 ≤ s.cfg.maxCapacity := by
  rw [parserArm_of_five_le b s h5] at hstay
  split at hstay
  · cases hstay
  · omega

theorem frameVerified_of_complete {b : Byte} {s : State} (hc : parserArm b s = .complete) :
    frameVerified s.cfg s.buf = true := by
  have h5 : 5 ≤ s.index.toNat := not_lt.1 fun hlt => parserArm_ne_complete_of_lt_five hlt hc
  rw [parserArm_of_five_le b s h5] at hc
  split_ifs at hc
  assumption

/-! ## The step lemma -/

/-- Storing a byte keeps R108 when its arm does not resync: clause by clause, the byte stored is the one the clause
speaks of, and the arm has tested it, or the clause held before. -/
theorem inv_storeByte {b : Byte} {s : State} (hinv : s.Inv) (hp : pending s = false)
    (hstay : (parserArm b (storeByte b s)).isResync = false) : (storeByte b s).Inv := by
  have hroom := index_lt_of_not_pending hinv hp
  have hidx := storeByte_index_toNat_of_inv b hinv
  have hread := read_storeByte b hinv.bufWf
  have hle := storeByte_index_le_of_not_pending b hinv hp
  exact {
    legal := hinv.legal
    bufWf := wf_write _ _ _ _ hroom hinv.bufWf
    outWf := hinv.outWf
    indexLe := by rw [hidx]; exact hroom
    lowHeader := fun _ => by
      rw [hread]
      split
      · exact eq_lo8_of_first_stays (by omega) hstay
      · exact hinv.lowHeader (by omega)
    highHeader := fun h2 => by
      by_cases h1 : s.index.toNat = 1
      · exact ((le16_eq_iff _ _ _).1 (frameHeader_eq_of_second_stays (by omega) hstay)).2
      · rw [hread, if_neg (Ne.symm h1)]
        exact hinv.highHeader (by omega)
    sizeFits := fun h5 => ⟨size_fits_of_stays h5 hstay, hle h5⟩
    pendingVerified := fun hpend => frameVerified_of_complete ((parserArm_eq_complete_iff hle).2 ⟨hstay, hpend⟩)
    outHeader := hinv.outHeader
    outFits := hinv.outFits
    outVerified := hinv.outVerified }

theorem inv_of_exec_addb {b : Byte} {s t : State} (hinv : s.Inv) (h : exec (.addb b) s = .next t) : t.Inv := by
  obtain ⟨hp, hroom, rfl⟩ := exec_addb_next b s t h
  rw [endArm]
  apply inv_answer
  split
  · exact inv_of_index_zero rfl hinv.legal (wf_write _ _ _ _ hroom hinv.bufWf) (isMessage_out hinv :)
  · next hstay => exact inv_storeByte hinv hp (by simpa using hstay)

theorem inv_of_exec_getm {s t : State} (hinv : s.Inv) (h : exec .getm s = .next t) : t.Inv := by
  obtain ⟨hp, rfl⟩ | ⟨-, rfl⟩ := exec_getm_next s t h
  · exact inv_answer _ (inv_setIndex_zero (inv_setOut hinv (isMessage_of_pending hinv hp)))
  · exact inv_answer _ (inv_setOut hinv (isMessage_noneImage hinv.legal))

/-- Every command keeps R108. -/
theorem inv_of_exec {i : Instr} {s t : State} (hinv : s.Inv) (h : exec i s = .next t) : t.Inv := by
  cases i with
  | addb b => exact inv_of_exec_addb hinv h
  | getm => exact inv_of_exec_getm hinv h
  | prst =>
    cases h
    exact inv_answer _ (inv_setIndex_zero hinv)
  | crcclr | crcrd | stat | len | chk | crcupd b | tblrd b | rdb b =>
    obtain ⟨hcfg, -, -, -, hidx, hbuf, hout⟩ := onlyTheNamedCommandsWrite _ s t h
    exact inv_congr hinv hcfg (hidx nofun nofun nofun) (hbuf nofun) (hout nofun)

/-- Settles O48: the idle step changes nothing, a command keeps R108, and the external reset establishes it. -/
theorem everyStepKeepsTheInvariant : Obligations.EveryStepKeepsTheInvariant := by
  intro s t hinv h
  obtain ⟨-, rfl⟩ | ⟨w, rest, i, -, -, hexec⟩ | ⟨rest, -, rfl⟩ := step_next s t h
  · exact hinv
  · exact inv_of_exec (inv_of_inputs rest hinv) hexec
  · exact inv_applyReset (inv_of_inputs rest hinv)

end Sys2Proof.Machine
end

section
/-! PROOFS. `ADDB` arm by arm (41_stream_parser.md R102, R112 to R114), its forward progress (R110) and the stay of a
completed frame (R105). -/

namespace Sys2Proof.Machine

/-- Under R108 and with nothing pending, `ADDB` ends the arm of the stored byte. -/
theorem exec_addb_of_inv {s : State} (b : Byte) (hinv : s.Inv) (hp : pending s = false) :
    exec (.addb b) s = .next (endArm (parserArm b (storeByte b s)) (storeByte b s)) :=
  exec_addb b s hp (index_lt_of_not_pending hinv hp)

/-- No frame is pending before its size byte is stored (10_state.md R27). -/
theorem not_pending_of_lt_five {s : State} (h : s.index.toNat < 5) : pending s = false :=
  Bool.eq_false_iff.2 fun hp => by
    have := ((pending_iff s).1 hp).1
    omega

/-- Settles O38: the sums are sums of numbers, and `INDEX` is an offset of `BUF` while nothing is pending. -/
theorem noSumWraps : Obligations.NoSumWraps := by
  refine ⟨totalLength_toNat, fun cfg x => ?_, fun s hinv hp => ?_⟩
  · have hsize := (Memory.read cfg x 4).isLt
    rw [lengthData_eq, frameSize, BitVec.toNat_ofNat]
    omega
  · have hroom := index_lt_of_not_pending hinv hp
    have hcap : s.cfg.maxCapacity ≤ 254 := hinv.legal.2
    have hidx : (s.index + 1).toNat = s.index.toNat + 1 := storeByte_index_toNat_of_inv 0 hinv
    omega

/-! ## The arms -/

/-- The state after an arm that does not resync, its counter as the sum of numbers. -/
theorem endArm_storeByte_of_stay {c : Cause} (b : Byte) (s : State) (hc : c.isResync = false) :
    endArm c (storeByte b s) =
      { s with
        buf := Memory.write s.cfg s.buf s.index.toNat b
        index := BitVec.ofNat 8 (s.index.toNat + 1)
        responses := ⟨c.flag, c.code, 0⟩ :: s.responses } := by
  have hidx : BitVec.ofNat 8 (s.index.toNat + 1) = s.index + 1 := by simp [BitVec.ofNat_add]
  rw [endArm_eq, hc, hidx]
  rfl

/-- The state after an arm that resyncs (60_exceptions.md R177). -/
theorem endArm_storeByte_of_resync {c : Cause} (b : Byte) (s : State) (hc : c.isResync = true) :
    endArm c (storeByte b s) =
      { s with
        buf := Memory.write s.cfg s.buf s.index.toNat b
        index := 0
        responses := ⟨c.flag, c.code, 0⟩ :: s.responses } := by
  rw [endArm_eq, hc]
  rfl

/-- Settles O25: one case for each test of R102 on the counter, each closed by the equation of its arm. -/
theorem addbFollowsTheParserSteps : Obligations.AddbFollowsTheParserSteps := by
  refine ⟨fun _ => decode_or_of_opcode 0x20 rfl fun _ => rfl, fun s b hinv hp => ?_⟩
  intro m at' i size ends t
  have stay (c : Cause) (hc : c.isResync = false) : endArm c (storeByte b s) = ends c.flag c.code i :=
    endArm_storeByte_of_stay b s hc
  have resyncs (c : Cause) (hc : c.isResync = true) : endArm c (storeByte b s) = ends c.flag c.code 0 :=
    endArm_storeByte_of_resync b s hc
  have hidx : (storeByte b s).index.toNat = i := storeByte_index_toNat_of_inv b hinv
  have ht : endArm (parserArm b (storeByte b s)) (storeByte b s) = t := by
    by_cases h1 : i = 1
    · rw [parserArm_first b _ (hidx.trans h1), apply_ite (endArm · _), stay _ rfl, resyncs _ rfl]
      exact (if_pos h1).symm
    by_cases h2 : i = 2
    · rw [parserArm_second b _ (hidx.trans h2), apply_ite (endArm · _), stay _ rfl, resyncs _ rfl]
      exact ((if_neg h1).trans (if_pos h2)).symm
    by_cases h5 : i < 5
    · rw [parserArm_checksum b _ (by omega), stay _ rfl]
      exact ((if_neg h1).trans ((if_neg h2).trans (if_pos h5))).symm
    · rw [parserArm_of_five_le b _ (by omega), hidx, if_congr (frameVerified_iff _ _) rfl rfl]
      simp only [apply_ite (endArm · (storeByte b s)), resyncs .resyncSize rfl, stay .accept rfl, stay .complete rfl,
        resyncs .resyncCrc rfl]
      exact ((if_neg h1).trans ((if_neg h2).trans (if_neg h5))).symm
  have hexec : exec (.addb b) s = .next t := ht ▸ exec_addb_of_inv b hinv hp
  exact ⟨hexec, pending_after_addb_iff hinv hexec⟩

/-- A byte that is not the low header byte, at `INDEX = 0` (41_stream_parser.md R103 a). -/
theorem parserArm_storeByte_of_ne_lo8 {b : Byte} {s : State} (hidx : s.index = 0) (hb : b ≠ lo8 s.cfg.header) :
    parserArm b (storeByte b s) = .resyncHdr0 := by
  have h1 : (storeByte b s).index.toNat = 1 := by simp [hidx]
  exact (parserArm_first b _ h1).trans (if_neg hb)

/-- A byte that is not the high header byte, at `INDEX = 1` (41_stream_parser.md R103 c). -/
theorem parserArm_storeByte_of_ne_hi8 {b : Byte} {s : State} (hwf : Memory.wf s.cfg s.buf) (hidx : s.index = 1)
    (hb : b ≠ hi8 s.cfg.header) : parserArm b (storeByte b s) = .resyncHdr1 := by
  have h2 : (storeByte b s).index.toNat = 2 := by simp [hidx]
  refine (parserArm_second b _ h2).trans (if_neg fun hheader => hb ?_)
  have hhigh := ((le16_eq_iff _ _ _).1 hheader).2
  rwa [read_storeByte b hwf, if_pos (by simp [hidx])] at hhigh

/-- Settles O32: the second byte takes the arm of a failed header, which resyncs. -/
theorem failedSecondByteIsNotReexamined : Obligations.FailedSecondByteIsNotReexamined := by
  intro s b hinv hidx hb
  have hp : pending s = false := not_pending_of_lt_five (by simp [hidx])
  rw [exec_addb_of_inv b hinv hp, parserArm_storeByte_of_ne_hi8 hinv.bufWf hidx hb,
    endArm_storeByte_of_resync b s rfl, hidx]
  rfl

/-- From the third byte on, no arm compares with the header, so the two header codes of 60_exceptions.md R173 are not
given. -/
theorem parserArm_code_of_three_le {b : Byte} {s : State} (h3 : 3 ≤ s.index.toNat) :
    (parserArm b s).code ≠ 2 ∧ (parserArm b s).code ≠ 3 := by
  by_cases h5 : 5 ≤ s.index.toNat
  · rw [parserArm_of_five_le b s h5]
    split_ifs <;> decide
  · rw [parserArm_checksum b s (by omega)]
    decide

/-- Settles O31: the byte stored is at least the third, whose arm is no header arm. -/
theorem headerBytesInsideAFrameAreData : Obligations.HeaderBytesInsideAFrameAreData := by
  intro s t b hlegal h2 h
  obtain ⟨-, hroom, rfl⟩ := exec_addb_next b s t h
  have hcap : s.cfg.maxCapacity ≤ 254 := hlegal.2
  have hidx := storeByte_index_toNat b s (by omega)
  exact ⟨_, endArm_responses _ _, parserArm_code_of_three_le (by omega)⟩

/-! ## The size byte -/

/-- The arm of the size byte, by the size it declares (41_stream_parser.md R112, R113). -/
theorem parserArm_storeByte_size {b : Byte} {s : State} (hwf : Memory.wf s.cfg s.buf) (hidx : s.index = 4) :
    parserArm b (storeByte b s) =
      if s.cfg.maxCapacity < b.toNat + 5 then .resyncSize
      else if 5 < b.toNat + 5 then .accept
      else if frameVerified s.cfg (storeByte b s).buf then .complete
      else .resyncCrc := by
  have h5 : (storeByte b s).index.toNat = 5 := by simp [hidx]
  have hsize : frameSize (storeByte b s).cfg (storeByte b s).buf = b := by
    rw [frameSize, read_storeByte b hwf, if_pos (by simp [hidx])]
  rw [parserArm_of_five_le b _ h5.ge, h5, hsize]
  rfl

/-- Settles O29: the arm of the size byte tests the bound first. -/
theorem oversizeSizeByteResyncs : Obligations.OversizeSizeByteResyncs := by
  intro s b hinv hidx
  have hp : pending s = false := not_pending_of_lt_five (by simp [hidx])
  have harm := parserArm_storeByte_size (b := b) hinv.bufWf hidx
  constructor
  · intro hover
    rw [exec_addb_of_inv b hinv hp, harm, if_pos hover, endArm_storeByte_of_resync b s rfl, hidx]
    rfl
  · intro hfits
    have hcode : (parserArm b (storeByte b s)).code ≠ 4 := by
      rw [harm, if_neg (not_lt.2 hfits)]
      split_ifs <;> decide
    exact ⟨_, _, exec_addb_of_inv b hinv hp, endArm_responses _ _, hcode⟩

/-- An array that declares an empty body verifies exactly when its checksum field is zero. -/
theorem frameVerified_iff_of_size_zero {cfg : Config} {x : Memory} (hsize : frameSize cfg x = 0) :
    frameVerified cfg x = true ↔ frameChecksum cfg x = 0 := by
  have hbody : frameBody cfg x = [] := by simp [frameBody, hsize]
  rw [frameVerified_iff, hbody, crc16_nil, eq_comm]

/-- Settles O30: the arm of a zero size byte is that of the last byte, and the store leaves the checksum field. -/
theorem emptyFrameCompletesOnItsSizeByte : Obligations.EmptyFrameCompletesOnItsSizeByte := by
  intro s hinv hidx
  have hp : pending s = false := not_pending_of_lt_five (by simp [hidx])
  have h4 : s.index.toNat = 4 := by simp [hidx]
  have hread := read_storeByte 0 hinv.bufWf
  have hcap : ¬ s.cfg.maxCapacity < (0 : Byte).toNat + 5 := not_lt.2 (Nat.le_of_succ_le hinv.legal.1)
  have hsize : frameSize s.cfg (storeByte 0 s).buf = 0 := (hread 4).trans (if_pos h4.symm)
  have hsum : frameChecksum s.cfg (storeByte 0 s).buf =
      le16 (Memory.read s.cfg s.buf 2) (Memory.read s.cfg s.buf 3) :=
    congrArg₂ le16 ((hread 2).trans (if_neg (by omega))) ((hread 3).trans (if_neg (by omega)))
  rw [exec_addb_of_inv 0 hinv hp, parserArm_storeByte_size hinv.bufWf hidx, if_neg hcap, if_neg (by decide),
    if_congr (frameVerified_iff_of_size_zero hsize) rfl rfl, hsum]
  split
  · rw [endArm_storeByte_of_stay 0 s rfl, h4]
    rfl
  · rw [endArm_storeByte_of_resync 0 s rfl, h4]
    rfl

/-! ## Forward progress -/

theorem index_after_addb {b : Byte} {s t : State} (hinv : s.Inv) (h : exec (.addb b) s = .next t) :
    t.index.toNat = s.index.toNat + 1 ∨ t.index = 0 := by
  obtain ⟨-, -, rfl⟩ := exec_addb_next b s t h
  rw [endArm_index]
  split
  · exact .inr rfl
  · exact .inl (storeByte_index_toNat_of_inv b hinv)

/-- Bytes enough to fill `BUF` end the candidate: each one that does not moves `INDEX` on towards the capacity. -/
theorem exists_take_ends_candidate (bs : List Byte) {s : State} (hinv : s.Inv) (hp : pending s = false)
    (hlen : s.cfg.maxCapacity ≤ s.index.toNat + bs.length) :
    ∃ k t, 1 ≤ k ∧ k ≤ bs.length ∧ execAll ((bs.take k).map .addb) s = .next t ∧
      (pending t = true ∨ t.index = 0) := by
  induction bs generalizing s with
  | nil => exact absurd (index_lt_of_not_pending hinv hp) (not_lt.2 hlen)
  | cons b bs ih =>
    obtain ⟨u, hu⟩ : ∃ u, exec (.addb b) s = .next u := ⟨_, exec_addb_of_inv b hinv hp⟩
    by_cases hend : pending u = true ∨ u.index = 0
    · exact ⟨1, u, le_rfl, by simp, execAll_cons _ hu, hend⟩
    · obtain ⟨hpu, hu0⟩ := not_or.1 hend
      have hidx := (index_after_addb hinv hu).resolve_right hu0
      obtain ⟨hcfg, -⟩ := onlyTheNamedCommandsWrite _ s u hu
      rw [List.length_cons] at hlen
      obtain ⟨k, t, -, hk, ht, hends⟩ := ih (inv_of_exec hinv hu) (by simpa using hpu)
        (by rw [hcfg, hidx]; omega)
      exact ⟨k + 1, t, by omega, by simpa using hk, (execAll_cons _ hu).trans ht, hends⟩

/-- Settles O27: one byte moves `INDEX` by one or ends the candidate, so the capacity bounds a candidate's length. -/
theorem parserMakesForwardProgress : Obligations.ParserMakesForwardProgress := by
  refine ⟨fun s b hinv hp => ?_, fun s bs hinv hp hlen => ?_⟩
  · have hexec := exec_addb_of_inv b hinv hp
    exact ⟨_, hexec, index_after_addb hinv hexec⟩
  · rw [← hlen]
    exact exists_take_ends_candidate bs hinv hp (by omega)

/-! ## The commands that end or keep a completed frame -/

/-- Settles O33: the two arms of `GETM`, by `PENDING`. -/
theorem getmTakesTheFrameOrTheSentinel : Obligations.GetmTakesTheFrameOrTheSentinel := by
  refine ⟨fun _ => decode_or_of_opcode 0x21 rfl nofun, fun s hp => ?_, fun s hp => ?_,
    fun s t h => pending_after_getm h⟩
  · rw [exec_getm, if_pos hp, lengthData_eq]
    rfl
  · rw [exec_getm, hp]
    rfl

/-- Settles O36: the word has the opcode of `PRST`, whose equation is `exec_prst`, and `INDEX = 0` is below 5. -/
theorem prstResetsTheCounterOnly : Obligations.PrstResetsTheCounterOnly :=
  ⟨fun _ => decode_or_of_opcode 0x22 rfl nofun,
    fun s => ⟨exec_prst s, not_pending_of_lt_five (by simp)⟩⟩

/-- Settles O37: the word has the opcode of `STAT`, whose equation is `exec_stat`. -/
theorem statReadsPendingAndIndex : Obligations.StatReadsPendingAndIndex :=
  ⟨fun _ => decode_or_of_opcode 0x23 rfl nofun, exec_stat⟩

/-- Settles O34: flag 1 means a pending frame, which only `ADDB`, `GETM` and `PRST` could end, and `ADDB` has no next
state there. -/
theorem completionStaysUntilTakenOrDropped : Obligations.CompletionStaysUntilTakenOrDropped := by
  refine ⟨fun s t b r hinv h hresp hflag => ?_, fun s t i hp h hgetm hprst => ?_, fun s hp => ?_⟩
  · have hpt : pending t = true := (pending_after_addb_iff hinv h).2 (by simp [hresp, hflag])
    exact ⟨((pending_iff t).1 hpt).2, hpt⟩
  · have haddb : ∀ b, i ≠ .addb b := by
      rintro b rfl
      exact Bool.false_ne_true ((exec_addb_next b s t h).1.symm.trans hp)
    obtain ⟨-, -, -, -, hidx, -⟩ := onlyTheNamedCommandsWrite i s t h
    exact ⟨hidx haddb hgetm hprst, (pending_after_other haddb hgetm hprst h).trans hp⟩
  · exact ⟨_, _, (exec_getm s).trans (if_pos hp), rfl, exec_prst s, rfl⟩

end Sys2Proof.Machine
end

section
/-! PROOFS. What holds along every run (41_stream_parser.md R108, 70_reset_and_hazards.md R201). -/

namespace Sys2Proof.Machine

/-- A run that answers a next state has a last step that does. -/
theorem run_succ_last {n : Nat} {s t : State} (h : run (n + 1) s = .next t) :
    ∃ u, run n s = .next u ∧ step u = .next t := by
  induction n generalizing s with
  | zero =>
    obtain ⟨u, hu, ht⟩ := run_succ_next 0 s t h
    cases ht
    exact ⟨s, rfl, hu⟩
  | succ n ih =>
    obtain ⟨u, hu, hrest⟩ := run_succ_next (n + 1) s t h
    obtain ⟨v, hv, hlast⟩ := ih hrest
    exact ⟨v, (run_succ n s u hu).trans hv, hlast⟩

/-- What holds at the start of a run and is kept by each of its steps holds at each of its states. -/
theorem run_induction {P : Nat → State → Prop} {s : State} (hstart : P 0 s)
    (hstep : ∀ n u t, run n s = .next u → P n u → step u = .next t → P (n + 1) t) {n : Nat} {t : State}
    (h : run n s = .next t) : P n t := by
  induction n generalizing t with
  | zero =>
    cases h
    exact hstart
  | succ n ih =>
    obtain ⟨u, hu, hlast⟩ := run_succ_last h
    exact hstep n u t hu (ih hu) hlast

/-- No step writes the parameters (00_scope.md R8). -/
theorem cfg_of_step {s t : State} (h : step s = .next t) : t.cfg = s.cfg := by
  obtain ⟨-, rfl⟩ | ⟨w, rest, i, -, -, hexec⟩ | ⟨rest, -, rfl⟩ := step_next s t h
  · rfl
  · exact (onlyTheNamedCommandsWrite i _ t hexec).1
  · rfl

/-- A step leaves `OUT`, sets it to the sentinel, or copies a pending frame into it (10_state.md R25). -/
theorem out_of_step {s t : State} (h : step s = .next t) :
    t.out = s.out ∨ t.out = noneImage ∨ (pending s = true ∧ t.out = s.buf) := by
  obtain ⟨-, rfl⟩ | ⟨w, rest, i, -, -, hexec⟩ | ⟨rest, -, rfl⟩ := step_next s t h
  · exact .inl rfl
  · by_cases hgetm : i = .getm
    · subst hgetm
      obtain ⟨hp, rfl⟩ | ⟨-, rfl⟩ := exec_getm_next _ t hexec
      · exact .inr (.inr ⟨hp, rfl⟩)
      · exact .inr (.inl rfl)
    · obtain ⟨-, -, -, -, -, -, hout⟩ := onlyTheNamedCommandsWrite i _ t hexec
      exact .inl (hout hgetm)
  · exact .inr (.inl rfl)

theorem inv_of_run {n : Nat} {s t : State} (hinv : s.Inv) (h : run n s = .next t) : t.Inv :=
  run_induction (P := fun _ u => u.Inv) hinv (fun _ u v _ hu hstep => everyStepKeepsTheInvariant u v hu hstep) h

theorem cfg_of_run {n : Nat} {s t : State} (h : run n s = .next t) : t.cfg = s.cfg :=
  run_induction (P := fun _ u => u.cfg = s.cfg) rfl (fun _ _ _ _ hu hstep => (cfg_of_step hstep).trans hu) h

/-- Where the content of `OUT` comes from after `n` steps of the run from `s`: the sentinel, or the frame of a state of
that run at which one was pending (41_stream_parser.md R108 g). -/
def OutFromRun (s : State) (n : Nat) (t : State) : Prop :=
  t.out = noneImage ∨ ∃ m u, m ≤ n ∧ run m s = .next u ∧ pending u = true ∧ t.out = u.buf

theorem outFromRun_step {n : Nat} {s u t : State} (hu : run n s = .next u) (hout : OutFromRun s n u)
    (h : step u = .next t) : OutFromRun s (n + 1) t := by
  obtain hsame | hnone | ⟨hp, hbuf⟩ := out_of_step h
  · obtain hnone | ⟨m, v, hm, hv, hp, hbuf⟩ := hout
    · exact .inl (hsame.trans hnone)
    · exact .inr ⟨m, v, Nat.le_succ_of_le hm, hv, hp, hsame.trans hbuf⟩
  · exact .inl hnone
  · exact .inr ⟨n, u, Nat.le_succ n, hu, hp, hbuf⟩

theorem outFromRun_of_run {n : Nat} {s t : State} (hstart : s.out = noneImage) (h : run n s = .next t) :
    OutFromRun s n t :=
  run_induction (P := OutFromRun s) (.inl hstart) (fun _ _ _ => outFromRun_step) h

/-- Settles O49: the invariant, the parameters and the origin of `OUT` hold along every run, and R108 b and f are the
invariant's clauses read through 10_state.md R27. -/
theorem everyReachedStateMeetsRule108 : Obligations.EveryReachedStateMeetsRule108 := by
  intro cfg inputs n t hlegal h
  have hinv : t.Inv := inv_of_run (inv_of_inputs inputs (inv_resetWith hlegal)) h
  obtain rfl : t.cfg = cfg := cfg_of_run h
  refine ⟨rfl, hinv.indexLe, fun hp => Nat.le_sub_one_of_lt (index_lt_of_not_pending hinv hp), hinv.lowHeader,
    hinv.highHeader, hinv.sizeFits, fun h5 hend => ?_, outFromRun_of_run rfl h, hinv.outHeader, hinv.outFits, ?_⟩
  · exact (frameVerified_iff _ _).1 (hinv.pendingVerified ((pending_iff t).2 ⟨h5, hend⟩))
  · exact (frameVerified_iff _ _).1 hinv.outVerified

end Sys2Proof.Machine
end

section
/-! PROOFS. The checksum loses nothing: a step is injective in the running value and in the byte, so a changed byte shows
in the checksum (41_stream_parser.md R116 b). -/

namespace Sys2Proof.Machine

/-- The eight shifts are linear and have a trivial kernel. -/
theorem shiftByte_injective : Function.Injective shiftByte := by
  intro a b h
  have hzero : shiftByte (a ^^^ b) = 0 := by
    rw [shiftByte_xor, h]
    exact BitVec.xor_self
  exact BitVec.xor_eq_zero_iff.1 (shiftByte_eq_zero _ hzero)

theorem crcStep_left_injective (b : Byte) : Function.Injective (crcStep · b) := by
  intro c d h
  simp only [crcStep_eq_shiftByte] at h
  exact (BitVec.xor_left_inj _).1 (shiftByte_injective h)

theorem crcStep_right_injective (c : Half) : Function.Injective (crcStep c) := by
  intro a b h
  rw [crcStep_eq_shiftByte, crcStep_eq_shiftByte] at h
  have hwide : a.setWidth 16 = b.setWidth 16 := (BitVec.xor_right_inj c).1 (shiftByte_injective h)
  simpa using congrArg (BitVec.setWidth 8) hwide

/-- Running values that differ stay different through the same bytes. -/
theorem foldl_crcStep_injective (bs : List Byte) : Function.Injective (bs.foldl crcStep) := by
  induction bs with
  | nil => exact Function.injective_id
  | cons b bs ih => exact ih.comp (crcStep_left_injective b)

/-- Settles O24: after the common first part the changed byte gives another running value, which the common rest keeps
different. -/
theorem checksumSeesAnyChangedByte : Obligations.ChecksumSeesAnyChangedByte := by
  intro x y b e he hsum
  rw [crc16_append, crc16_append] at hsum
  have hstep : crcStep (crc16 x) (b ^^^ e) = crcStep (crc16 x) b := foldl_crcStep_injective y hsum
  exact he (xor_left_eq_self_iff.1 (crcStep_right_injective _ hstep))

end Sys2Proof.Machine
end

section
/-! PROOFS. Lists of commands, and the same commands issued at the port (20_memory.md R49, 30_encoding.md R60). -/

namespace Sys2Proof.Machine

/-- A list of commands goes on from the state that its first part answers. -/
theorem execAll_append {is : List Instr} {s t : State} (js : List Instr) (h : execAll is s = .next t) :
    execAll (is ++ js) s = execAll js t := by
  induction is generalizing s with
  | nil =>
    cases h
    rfl
  | cons i is ih =>
    obtain ⟨u, hu, hrest⟩ := execAll_cons_next h
    exact (execAll_cons _ hu).trans (ih hrest)

/-- No command reads or writes what the host will do next (30_encoding.md R60). -/
theorem exec_with_inputs {i : Instr} {s t : State} (inputs : List HostInput) (h : exec i s = .next t) :
    exec i { s with inputs := inputs } = .next { t with inputs := inputs } := by
  have hpending : pending { s with inputs := inputs } = pending s := rfl
  cases i with
  | addb b =>
    obtain ⟨hp, hi, rfl⟩ := exec_addb_next b s t h
    rw [exec_addb b _ (hpending.trans hp) hi, endArm_eq, endArm_eq]
    rfl
  | getm =>
    rw [exec_getm, hpending]
    obtain ⟨hp, rfl⟩ | ⟨hp, rfl⟩ := exec_getm_next s t h
    · rw [if_pos hp]
      rfl
    · rw [hp]
      rfl
  | chk =>
    obtain ⟨hfits, rfl⟩ := exec_chk_next s t h
    rw [exec_chk, if_pos hfits]
    rfl
  | crcclr | crcrd | prst | stat | len | crcupd b | tblrd b | rdb b =>
    cases h
    rfl

/-- Commands at the port are run one after the other, one step each. -/
theorem run_issued {is : List Instr} {rest : List HostInput} {s t : State} (hin : s.inputs = issued is ++ rest)
    (h : execAll is { s with inputs := rest } = .next t) : run is.length s = .next t := by
  induction is generalizing s with
  | nil =>
    have hrest : rest = s.inputs := hin.symm
    rwa [hrest] at h
  | cons i is ih =>
    obtain ⟨u, hu, hrest⟩ := execAll_cons_next h
    obtain ⟨-, hinputs, -⟩ := onlyTheNamedCommandsWrite _ _ _ hu
    have hstep : step s = .next { u with inputs := issued is ++ rest } :=
      (stepRunsTheDecodedCommand s _ _ i hin (decode_encode i)).trans
        (exec_with_inputs (s := { s with inputs := rest }) _ hu)
    have hsame : { u with inputs := rest } = u := by rw [← show u.inputs = rest from hinputs]
    exact (run_succ _ _ _ hstep).trans (ih rfl (hsame ▸ hrest))

end Sys2Proof.Machine
end

section
/-! PROOFS. A frame fed byte by byte from the search state (41_stream_parser.md R102, R116): what is in `BUF` after each
byte, the arm each byte takes, and the three statements on whole frames. -/

namespace Sys2Proof.Machine

/-! ## The bytes of a frame in an array -/

/-- The bytes of a candidate with the block's header, any checksum field and any body, its size byte that of the body
(20_memory.md R41). -/
def frameBytes (cfg : Config) (sum : Half) (body : List Byte) : List Byte :=
  [lo8 cfg.header, hi8 cfg.header, lo8 sum, hi8 sum, BitVec.ofNat 8 body.length] ++ body

/-- The wire bytes of a frame carry the checksum of its body. -/
theorem wireFrame_eq (cfg : Config) (body : List Byte) : wireFrame cfg body = frameBytes cfg (crc16 body) body := rfl

@[simp] theorem length_frameBytes (cfg : Config) (sum : Half) (body : List Byte) :
    (frameBytes cfg sum body).length = body.length + 5 := by
  simp [frameBytes]

@[simp] theorem length_wireFrame (cfg : Config) (body : List Byte) : (wireFrame cfg body).length = body.length + 5 :=
  length_frameBytes cfg _ body

/-- The first `n` bytes of an array are the first `n` of a sequence. -/
def HoldsFirst (cfg : Config) (m : Memory) (n : Nat) (bs : List Byte) : Prop :=
  ∀ k, k < n → some (Memory.read cfg m k) = bs[k]?

theorem HoldsFirst.read_eq {cfg : Config} {m : Memory} {n : Nat} {bs : List Byte} (h : HoldsFirst cfg m n bs) {k : Nat}
    {b : Byte} (hk : k < n) (hb : bs[k]? = some b) : Memory.read cfg m k = b :=
  Option.some.inj ((h k hk).trans hb)

/-- Storing the next byte of the sequence at the next offset. -/
theorem HoldsFirst.storeByte {s : State} {bs : List Byte} {b : Byte} (h : HoldsFirst s.cfg s.buf s.index.toNat bs)
    (hwf : Memory.wf s.cfg s.buf) (hb : bs[s.index.toNat]? = some b) :
    HoldsFirst (storeByte b s).cfg (storeByte b s).buf (s.index.toNat + 1) bs := by
  intro k hk
  rw [read_storeByte b hwf]
  split
  · next heq => rw [heq, hb]
  · exact h k (by omega)

section
variable {cfg : Config} {x : Memory} {sum : Half} {body : List Byte} {n : Nat}
  (h : HoldsFirst cfg x n (frameBytes cfg sum body))
include h

theorem frameHeader_of_holdsFirst (hn : 2 ≤ n) : frameHeader cfg x = cfg.header := by
  rw [frameHeader, h.read_eq (by omega) (k := 0) rfl, h.read_eq (by omega) (k := 1) rfl, le16_lo8_hi8]

theorem frameChecksum_of_holdsFirst (hn : 4 ≤ n) : frameChecksum cfg x = sum := by
  rw [frameChecksum, h.read_eq (by omega) (k := 2) rfl, h.read_eq (by omega) (k := 3) rfl, le16_lo8_hi8]

theorem frameSize_of_holdsFirst (hn : 5 ≤ n) (hbody : body.length < 256) :
    (frameSize cfg x).toNat = body.length := by
  rw [frameSize, h.read_eq (by omega) (k := 4) rfl, BitVec.toNat_ofNat, Nat.mod_eq_of_lt hbody]

theorem frameBody_of_holdsFirst (hn : n = body.length + 5) (hbody : body.length < 256) : frameBody cfg x = body := by
  apply List.ext_getElem?
  intro k
  rw [frameBody, frameSize_of_holdsFirst h (by omega) hbody, List.getElem?_map]
  by_cases hk : k < body.length
  · rw [List.getElem?_range hk, Option.map_some, headerBlockSize, h (5 + k) (by omega), frameBytes,
      List.getElem?_append_right (by simp)]
    simp
  · rw [List.getElem?_eq_none (by simpa using hk), List.getElem?_eq_none (by simpa using hk)]
    rfl

end

/-! ## The arm of each byte -/

section
variable {s : State} {sum : Half} {body : List Byte} {b : Byte} {n : Nat}
  (h : HoldsFirst s.cfg s.buf (n + 1) (frameBytes s.cfg sum body)) (hidx : s.index.toNat = n + 1)
  (hbody : body.length < 256) (hfits : body.length + 5 ≤ s.cfg.maxCapacity)
include h hidx hbody hfits

/-- Every byte before the last is accepted. -/
theorem parserArm_eq_accept (hb : (frameBytes s.cfg sum body)[n]? = some b) (hn : n + 1 < body.length + 5) :
    parserArm b s = .accept := by
  by_cases h1 : n + 1 = 1
  · obtain rfl : n = 0 := by omega
    have hlow : b = lo8 s.cfg.header := (Option.some.inj hb).symm
    rw [parserArm_first b s hidx, if_pos hlow]
  by_cases h2 : n + 1 = 2
  · rw [parserArm_second b s (hidx.trans h2), if_pos (frameHeader_of_holdsFirst h h2.ge)]
  by_cases h5 : n + 1 < 5
  · exact parserArm_checksum b s (by omega)
  · rw [parserArm_of_five_le b s (by omega), frameSize_of_holdsFirst h (by omega) hbody, if_neg (by omega),
      if_pos (by omega)]

/-- The last byte completes the frame exactly when the checksum field is the checksum of the body. -/
theorem parserArm_last (hn : n + 1 = body.length + 5) :
    parserArm b s = if crc16 body = sum then .complete else .resyncCrc := by
  rw [parserArm_of_five_le b s (by omega), frameSize_of_holdsFirst h (by omega) hbody, if_neg (by omega),
    if_neg (by omega), if_congr (frameVerified_iff _ _) rfl rfl, frameBody_of_holdsFirst h hn hbody,
    frameChecksum_of_holdsFirst h (by omega)]

end

/-! ## Feeding a frame -/

/-- The state `t` is `s` after the first `n` bytes of a sequence, each of them stored and accepted. -/
structure Fed (s : State) (bs : List Byte) (n : Nat) (t : State) : Prop where
  inv : t.Inv
  notPending : pending t = false
  index : t.index.toNat = n
  bytes : HoldsFirst t.cfg t.buf n bs
  cfg : t.cfg = s.cfg
  crcAcc : t.crcAcc = s.crcAcc
  inputs : t.inputs = s.inputs
  responses : t.responses = List.replicate n ⟨false, 0, 0⟩ ++ s.responses

theorem fed_zero {s : State} (bs : List Byte) (hinv : s.Inv) (hidx : s.index = 0) : Fed s bs 0 s where
  inv := hinv
  notPending := not_pending_of_lt_five (by simp [hidx])
  index := by simp [hidx]
  bytes := fun _ hk => absurd hk (Nat.not_lt_zero _)
  cfg := rfl
  crcAcc := rfl
  inputs := rfl
  responses := rfl

/-- The bytes stored once `ADDB` has put the next one in its place. -/
theorem Fed.holdsFirst_storeByte {s t : State} {bs : List Byte} {n : Nat} {b : Byte} (h : Fed s bs n t)
    (hb : bs[n]? = some b) : HoldsFirst (storeByte b t).cfg (storeByte b t).buf (n + 1) bs := by
  have hidx := h.index
  subst hidx
  exact h.bytes.storeByte h.inv.bufWf hb

theorem Fed.index_storeByte {s t : State} {bs : List Byte} {n : Nat} (b : Byte) (h : Fed s bs n t) :
    (storeByte b t).index.toNat = n + 1 := by
  rw [storeByte_index_toNat_of_inv b h.inv, h.index]

/-- A byte before the last is accepted. -/
theorem Fed.next {s t : State} {sum : Half} {body : List Byte} {n : Nat} {b : Byte}
    (h : Fed s (frameBytes s.cfg sum body) n t) (hb : (frameBytes s.cfg sum body)[n]? = some b)
    (hn : n + 1 < body.length + 5) (hfits : body.length + 5 ≤ s.cfg.maxCapacity) :
    ∃ u, exec (.addb b) t = .next u ∧ Fed s (frameBytes s.cfg sum body) (n + 1) u := by
  have hbytes := h.holdsFirst_storeByte hb
  have harm : parserArm b (storeByte b t) = .accept := by
    have hcap : t.cfg.maxCapacity ≤ 254 := h.inv.legal.2
    rw [← h.cfg] at hbytes hb hfits
    exact parserArm_eq_accept hbytes (h.index_storeByte b) (by omega) hfits hb hn
  have hexec := exec_addb_of_inv b h.inv h.notPending
  rw [harm] at hexec
  refine ⟨_, hexec, ?_⟩
  exact {
    inv := inv_of_exec h.inv hexec
    notPending := Bool.eq_false_iff.2 fun hp => by
      simpa [Cause.flag] using (pending_after_addb_iff h.inv hexec).1 hp
    index := h.index_storeByte b
    bytes := hbytes
    cfg := h.cfg
    crcAcc := h.crcAcc
    inputs := h.inputs
    responses := by
      rw [endArm_responses, storeByte_responses, h.responses]
      rfl }

/-- One more byte of a sequence that is fed. -/
theorem execAll_take_succ {bs : List Byte} {n : Nat} {s t u : State} (hlen : n < bs.length)
    (ht : execAll ((bs.take n).map .addb) s = .next t) (hu : exec (.addb bs[n]) t = .next u) :
    execAll ((bs.take (n + 1)).map .addb) s = .next u := by
  rw [← List.take_append_getElem hlen, List.map_append, execAll_append _ ht]
  exact execAll_cons _ hu

/-- Every part of a frame that is not the whole of it is accepted byte by byte. -/
theorem exists_fed {s : State} (sum : Half) {body : List Byte} (hinv : s.Inv) (hidx : s.index = 0)
    (hfits : body.length + 5 ≤ s.cfg.maxCapacity) {n : Nat} (hn : n < body.length + 5) :
    ∃ t, execAll (((frameBytes s.cfg sum body).take n).map .addb) s = .next t ∧
      Fed s (frameBytes s.cfg sum body) n t := by
  induction n with
  | zero => exact ⟨s, rfl, fed_zero _ hinv hidx⟩
  | succ n ih =>
    obtain ⟨t, ht, hfed⟩ := ih (by omega)
    have hlen : n < (frameBytes s.cfg sum body).length := by
      rw [length_frameBytes]
      omega
    obtain ⟨u, hu, hfedu⟩ := hfed.next (List.getElem?_eq_getElem hlen) hn hfits
    exact ⟨u, execAll_take_succ hlen ht hu, hfedu⟩

/-- A whole frame fed: all bytes but the last are accepted, and the last one ends the arm of the checksum test. -/
theorem execAll_frameBytes {s : State} (sum : Half) {body : List Byte} (hinv : s.Inv) (hidx : s.index = 0)
    (hfits : body.length + 5 ≤ s.cfg.maxCapacity) :
    ∃ t b, Fed s (frameBytes s.cfg sum body) (body.length + 4) t ∧
      HoldsFirst s.cfg (storeByte b t).buf (body.length + 5) (frameBytes s.cfg sum body) ∧
      execAll ((frameBytes s.cfg sum body).map .addb) s =
        .next (endArm (if crc16 body = sum then .complete else .resyncCrc) (storeByte b t)) := by
  have hlen : body.length + 4 < (frameBytes s.cfg sum body).length := by simp
  obtain ⟨t, ht, hfed⟩ := exists_fed sum hinv hidx hfits (n := body.length + 4) (by omega)
  have hbytes := hfed.holdsFirst_storeByte (List.getElem?_eq_getElem hlen)
  generalize hb : (frameBytes s.cfg sum body)[body.length + 4] = b at hbytes
  have harm : parserArm b (storeByte b t) = if crc16 body = sum then .complete else .resyncCrc := by
    have hcap : t.cfg.maxCapacity ≤ 254 := hfed.inv.legal.2
    rw [← hfed.cfg] at hbytes hfits
    exact parserArm_last hbytes (hfed.index_storeByte b) (by omega) hfits rfl
  have hexec := exec_addb_of_inv b hfed.inv hfed.notPending
  rw [harm] at hexec
  refine ⟨t, b, hfed, hfed.cfg ▸ hbytes, ?_⟩
  subst hb
  have hall := execAll_take_succ hlen ht hexec
  rwa [List.take_of_length_le (by simp)] at hall

/-! ## Whole frames -/

/-- The state `t` is `s` after a frame with this body was fed and then taken by `GETM` (41_stream_parser.md R116 a). -/
structure FrameTaken (s : State) (body : List Byte) (t : State) : Prop where
  inputs : t.inputs = s.inputs
  index : t.index = 0
  crcAcc : t.crcAcc = s.crcAcc
  responses : t.responses = ⟨true, 0, BitVec.ofNat 16 (body.length + 5)⟩ :: ⟨true, 1, 0⟩ ::
    (List.replicate (body.length + 4) ⟨false, 0, 0⟩ ++ s.responses)
  bytes : HoldsFirst t.cfg t.out (body.length + 5) (wireFrame s.cfg body)

/-- The wire bytes of a frame complete it, and `GETM` takes it. -/
theorem exists_frameTaken {s : State} {body : List Byte} (hinv : s.Inv) (hidx : s.index = 0)
    (hfits : body.length + 5 ≤ s.cfg.maxCapacity) :
    ∃ t, execAll ((wireFrame s.cfg body).map .addb ++ [.getm]) s = .next t ∧ FrameTaken s body t := by
  rw [wireFrame_eq]
  obtain ⟨t, b, hfed, hbytes, hall⟩ := execAll_frameBytes (crc16 body) hinv hidx hfits
  rw [if_pos rfl] at hall
  have hcap : s.cfg.maxCapacity ≤ 254 := hinv.legal.2
  have hsize : (frameSize t.cfg (storeByte b t).buf).toNat = body.length :=
    hfed.cfg ▸ frameSize_of_holdsFirst hbytes (by omega) (by omega)
  have hpending : pending (endArm .complete (storeByte b t)) = true := by
    rw [pending_endArm, pending_iff, hfed.index_storeByte b, storeByte_cfg, hsize]
    exact ⟨rfl, by omega, rfl⟩
  refine ⟨_, (execAll_append _ hall).trans (execAll_cons _ ((exec_getm _).trans (if_pos hpending))), ?_⟩
  exact {
    inputs := hfed.inputs
    index := rfl
    crcAcc := hfed.crcAcc
    responses := by
      rw [answer_responses, setIndex_responses, setOut_responses, endArm_responses, storeByte_responses, hfed.responses,
        lengthData_eq, endArm_cfg, endArm_buf, storeByte_cfg, hsize]
      rfl
    bytes := hfed.cfg ▸ hbytes }

/-- Settles O50: the commands at the port are those of the list, which feed the frame and take it. -/
theorem wholeFrameRoundTrip : Obligations.WholeFrameRoundTrip := by
  intro s body rest hinv hidx hfits hin
  obtain ⟨t, ht, htaken⟩ := exists_frameTaken (inv_of_inputs rest hinv) hidx hfits
  have hrun := run_issued hin ht
  simp only [List.length_append, List.length_map, length_wireFrame, List.length_singleton] at hrun
  exact ⟨t, hrun, htaken.inputs, htaken.index, htaken.crcAcc, htaken.responses, htaken.bytes⟩

/-- Settles O51: the changed body keeps the length and not the checksum, so the frame's bytes are those of the changed
body with a checksum field that is not its own, and the last byte resyncs. -/
theorem corruptedBodyIsNeverEmitted : Obligations.CorruptedBodyIsNeverEmitted := by
  intro s x y b e rest hinv hidx he hfits hin
  have hlen : (x ++ (b ^^^ e) :: y).length = x.length + y.length + 1 := by simp [Nat.add_assoc]
  have hbytes : (wireFrame s.cfg (x ++ b :: y)).take 5 ++ (x ++ (b ^^^ e) :: y) =
      frameBytes s.cfg (crc16 (x ++ b :: y)) (x ++ (b ^^^ e) :: y) := by
    simp [wireFrame, frameBytes]
  rw [hbytes] at hin
  obtain ⟨t, c, hfed, -, hall⟩ := execAll_frameBytes (body := x ++ (b ^^^ e) :: y) (crc16 (x ++ b :: y))
    (inv_of_inputs rest hinv) hidx (by rw [hlen]; exact hfits)
  rw [if_neg (checksumSeesAnyChangedByte x y b e he)] at hall
  have hrun := run_issued hin hall
  rw [List.length_map, length_frameBytes, hlen] at hrun
  refine ⟨_, hrun, hfed.inputs, rfl, not_pending_of_lt_five (by simp [Cause.isResync]), ?_⟩
  rw [endArm_responses, storeByte_responses, hfed.responses, hlen]
  rfl

/-- The state `t` is `s` after `n` bytes were refused as first bytes (41_stream_parser.md R103 a). -/
structure Refused (s : State) (n : Nat) (t : State) : Prop where
  inv : t.Inv
  index : t.index = 0
  cfg : t.cfg = s.cfg
  inputs : t.inputs = s.inputs
  responses : t.responses = List.replicate n ⟨false, 2, 0⟩ ++ s.responses

/-- Bytes none of which is the low header byte are refused one by one. -/
theorem exists_refused {s : State} (garbage : List Byte) (hinv : s.Inv) (hidx : s.index = 0)
    (hne : ∀ g ∈ garbage, g ≠ lo8 s.cfg.header) :
    ∃ t, execAll (garbage.map .addb) s = .next t ∧ Refused s garbage.length t := by
  induction garbage generalizing s with
  | nil => exact ⟨s, rfl, hinv, hidx, rfl, rfl, rfl⟩
  | cons g garbage ih =>
    obtain ⟨hg, hrest⟩ := List.forall_mem_cons.1 hne
    have hexec := exec_addb_of_inv g hinv (not_pending_of_lt_five (by simp [hidx]))
    rw [parserArm_storeByte_of_ne_lo8 hidx hg] at hexec
    obtain ⟨t, ht, href⟩ := ih (inv_of_exec hinv hexec) rfl hrest
    refine ⟨t, (execAll_cons _ hexec).trans ht, href.inv, href.index, href.cfg, href.inputs, ?_⟩
    rw [href.responses, endArm_responses, List.length_cons, List.replicate_succ', List.append_assoc]
    rfl

/-- Settles O52: the garbage leaves the parser in the search state, from which the frame is taken whole. -/
theorem frameAfterGarbageIsTaken : Obligations.FrameAfterGarbageIsTaken := by
  intro s garbage body rest hinv hidx hfits hne hin
  obtain ⟨u, hu, href⟩ := exists_refused garbage (inv_of_inputs rest hinv) hidx hne
  obtain ⟨t, ht, htaken⟩ := exists_frameTaken href.inv href.index (hfits.trans_eq (by rw [href.cfg]))
  rw [List.map_append, List.append_assoc] at hin
  rw [href.cfg] at ht
  have hrun := run_issued hin ((execAll_append _ hu).trans ht)
  simp only [List.length_append, List.length_map, length_wireFrame, List.length_singleton] at hrun
  refine ⟨t, hrun, htaken.inputs.trans href.inputs, htaken.index, ?_, ?_⟩
  · rw [htaken.responses, href.responses]
  · exact href.cfg ▸ htaken.bytes

end Sys2Proof.Machine
end

section
/-! PROOFS. The message output register's commands (42_message_output.md R130 to R132). -/

namespace Sys2Proof.Machine

/-- `CHK` on a frame that lies inside the array answers the state with its checksum test. -/
theorem exec_chk_of_fits {s : State} (hfits : (frameSize s.cfg s.out).toNat + 5 ≤ s.cfg.maxCapacity) :
    exec .chk s = .next (answer { flag := frameVerified s.cfg s.out } s) := by
  rw [exec_chk, if_pos ((frameFits_iff s.cfg s.out).2 hfits)]

/-- Settles O40: the word has the opcode of `LEN`, whose equation is `exec_len`; the length data is the size plus 5, which
R108 g bounds. -/
theorem lenReturnsTheTotalLength : Obligations.LenReturnsTheTotalLength := by
  refine ⟨fun _ => decode_or_of_opcode 0x31 rfl nofun, exec_len, fun s hinv => ?_⟩
  obtain ⟨-, hlengthData, -⟩ := noSumWraps
  have hlength : (lengthData s.cfg s.out).toNat = (frameSize s.cfg s.out).toNat + 5 := hlengthData s.cfg s.out
  exact ⟨(Nat.le_add_left 5 _).trans_eq hlength.symm, hlength.trans_le hinv.outFits⟩

/-- Settles O41: a body inside the array is compared with the checksum field, and R108 g says that it fits and agrees. -/
theorem chkComparesTheChecksums : Obligations.ChkComparesTheChecksums := by
  refine ⟨fun _ => decode_or_of_opcode 0x32 rfl nofun, fun _ hfits => exec_chk_of_fits hfits, fun s hinv => ?_⟩
  rw [exec_chk_of_fits hinv.outFits, hinv.outVerified]
  rfl

/-- Settles O39: the word has the opcode of `RDB` and its operand, and the equation `exec_rdb` reads `outOperand`. -/
theorem rdbReadsOneByte : Obligations.RdbReadsOneByte :=
  ⟨fun _ => decode_or_of_opcode 0x30 rfl fun _ => rfl, fun s i => exec_rdb i s⟩

end Sys2Proof.Machine
end

section
/-! PROOFS. No command takes an exception: each is answered, and the one answer to an error is the resync of `ADDB`
(60_exceptions.md R170, R172, R173, R177). -/

namespace Sys2Proof.Machine

/-! ## Every command is answered -/

/-- Under R108 only `ADDB` on a pending frame has no next state: `BUF` has room for the byte that `ADDB` stores, and the
frame that `CHK` reads lies inside `OUT`. -/
theorem exists_exec_of_inv {i : Instr} {s : State} (hinv : s.Inv) (haddb : ∀ b, i = .addb b → pending s = false) :
    ∃ t, exec i s = .next t := by
  cases i with
  | addb b => exact ⟨_, exec_addb_of_inv b hinv (haddb b rfl)⟩
  | chk => exact ⟨_, exec_chk_of_fits hinv.outFits⟩
  | getm =>
    rw [exec_getm]
    split
    · exact ⟨_, rfl⟩
    · exact ⟨_, rfl⟩
  | crcclr | crcrd | prst | stat | len | crcupd b | tblrd b | rdb b => exact ⟨_, rfl⟩

/-- Settles O9: the step runs the command with its word taken from the port, which R108 and `PENDING` do not see; the
command has a next state, and adds one response. -/
theorem everyCommandIsAnswered : Obligations.EveryCommandIsAnswered := by
  intro s w rest i hinv hin hdec haddb
  obtain ⟨t, hexec⟩ : ∃ t, exec i { s with inputs := rest } = .next t :=
    exists_exec_of_inv (inv_of_inputs rest hinv) haddb
  obtain ⟨-, hinputs, ⟨r, hresp⟩, -⟩ := onlyTheNamedCommandsWrite _ _ t hexec
  exact ⟨t, r, (stepRunsTheDecodedCommand s w rest i hin hdec).trans hexec, hresp, hinputs⟩

/-! ## The rows of the cause table -/

/-- The arm of completion is taken at the end of the declared frame (41_stream_parser.md R101). -/
theorem storeByte_index_of_complete {b : Byte} {s : State} (hinv : s.Inv) (hp : pending s = false)
    (hc : parserArm b (storeByte b s) = .complete) :
    (storeByte b s).index.toNat = (frameSize (storeByte b s).cfg (storeByte b s).buf).toNat + 5 := by
  have hle := storeByte_index_le_of_not_pending b hinv hp
  obtain ⟨-, hpend⟩ := (parserArm_eq_complete_iff hle).1 hc
  exact ((pending_iff _).1 hpend).2

/-- The rows of 60_exceptions.md R173: code, flag and the counter at the end of an arm. -/
theorem endArm_code_flag_index (c : Cause) (s : State) :
    (c.code = 0 ∧ c.flag = false ∧ (endArm c s).index = s.index) ∨
    (c.code = 1 ∧ c.flag = true ∧ c = .complete ∧ (endArm c s).index = s.index) ∨
    (c.code ∈ [2, 3, 4, 5] ∧ c.flag = false ∧ (endArm c s).index = 0) := by
  cases c with
  | accept => exact .inl ⟨rfl, rfl, rfl⟩
  | complete => exact .inr (.inl ⟨rfl, rfl, rfl, rfl⟩)
  | resyncHdr0 | resyncHdr1 | resyncSize | resyncCrc => exact .inr (.inr ⟨by decide, rfl, rfl⟩)

/-- Settles O28: `ADDB` ends one arm from the state with the byte stored, so its response and counter are those of the
arm's row; a completed frame's counter is the frame's length. -/
theorem causeCodesAndResync : Obligations.CauseCodesAndResync := by
  intro s t b hinv h
  obtain ⟨hp, -, rfl⟩ := exec_addb_next b s t h
  refine ⟨_, endArm_responses _ _, rfl, endArm_buf _ _, endArm_cfg _ _, endArm_crcAcc _ _, endArm_out _ _,
    endArm_inputs _ _, ?_⟩
  obtain ⟨hcode, hflag, hidx⟩ | ⟨hcode, hflag, hc, hidx⟩ | hresync :=
    endArm_code_flag_index (parserArm b (storeByte b s)) (storeByte b s)
  · exact .inl ⟨hcode, hflag, hidx ▸ storeByte_index_toNat_of_inv b hinv⟩
  · refine .inr (.inl ⟨hcode, hflag, ?_⟩)
    rw [hidx, endArm_cfg, endArm_buf]
    exact storeByte_index_of_complete hinv hp hc
  · exact .inr (.inr hresync)

end Sys2Proof.Machine
end

section
/-! PROOFS. Where the model stops (70_reset_and_hazards.md R195), and the reset (R190, R191). -/

namespace Sys2Proof.Machine

/-! ## Where the commands stop -/

/-- `ADDB` on a pending frame stops (70_reset_and_hazards.md R195). -/
theorem exec_addb_of_pending {s : State} (b : Byte) (hp : pending s = true) :
    exec (.addb b) s = .fault .addbWhilePending := by
  rw [exec_addb_eq, execAddb, if_pos hp]

/-- `ADDB` with nothing pending stops when `INDEX` is no offset of `BUF` (log entry 8). -/
theorem exec_addb_of_outside {s : State} (b : Byte) (hp : pending s = false)
    (houtside : s.cfg.maxCapacity ≤ s.index.toNat) : exec (.addb b) s = .fault .storeOutsideBuf := by
  rw [exec_addb_eq, execAddb, if_neg (Bool.eq_false_iff.1 hp), if_neg (Nat.not_lt.2 houtside)]

/-- `CHK` stops when the frame that `OUT` declares runs past the array (log entry 9). -/
theorem exec_chk_of_not_fits {s : State} (hpast : s.cfg.maxCapacity < (frameSize s.cfg s.out).toNat + 5) :
    exec .chk s = .fault .readOutsideOut := by
  rw [exec_chk, if_neg fun hfits => Nat.not_le.2 hpast ((frameFits_iff s.cfg s.out).1 hfits)]

/-- A command that stops with a fault is `ADDB` or `CHK`: both arms of `GETM` answer a next state, and the others have
one arm. -/
theorem addb_or_chk_of_exec_fault {i : Instr} {s : State} {f : Fault} (h : exec i s = .fault f) :
    (∃ b, i = .addb b) ∨ i = .chk := by
  cases i with
  | addb b => exact .inl ⟨b, rfl⟩
  | chk => exact .inr rfl
  | getm =>
    rw [exec_getm] at h
    split at h
    · cases h
    · cases h
  | crcclr | crcrd | prst | stat | len | crcupd b | tblrd b | rdb b => cases h

/-- Settles O10: one lemma per stop, and no other command has an arm that stops. -/
theorem whereTheCommandsStop : Obligations.WhereTheCommandsStop :=
  ⟨fun _ b => exec_addb_of_pending b, fun _ b => exec_addb_of_outside b, fun _ => exec_chk_of_not_fits,
    fun _ _ _ => addb_or_chk_of_exec_fault⟩

/-! ## Reset -/

/-- Settles O11: `BUF` and `OUT` list no offset, so every byte reads as the sentinel's; with `INDEX = 0` nothing is
pending; the table is eight shifts of its index, whatever the state. -/
theorem stateAfterReset : Obligations.StateAfterReset := by
  intro cfg _
  refine ⟨resetWith_cfg cfg, resetWith_crcAcc cfg, resetWith_index cfg, fun k _ => read_nil cfg k,
    fun k _ => read_nil cfg k, not_pending_of_lt_five (by simp), fun i => ?_⟩
  rw [exec_tblrd, tableEntriesAreEightShifts i]
  rfl

/-- A step whose input is the external reset is that reset, with the input taken (70_reset_and_hazards.md R190). -/
theorem step_of_reset {s : State} {rest : List HostInput} (hin : s.inputs = .reset :: rest) :
    step s = .next (applyReset { s with inputs := rest }) := by
  rw [step, takeInput_cons s .reset rest hin]

/-- Settles O12: the step is the reset, which reads the parameters and the two sides of the port only. -/
theorem externalResetFromAnyState : Obligations.ExternalResetFromAnyState :=
  fun _ _ => step_of_reset

end Sys2Proof.Machine
end

section
/-! PROOFS. Words written out bit by bit: each decodes by its two fields (30_encoding.md R61, R62, R66, R68). -/

namespace Sys2Proof

/-- A word with the opcode of a format `N` command is that command, whatever its operand byte (30_encoding.md R62). -/
theorem decode_of_format_N {w : Half} {i : Instr} (hformat : i.format = .N) (hop : opField w = i.opcode) :
    decode w = .ok i :=
  (decode_eq_ok_iff w i).2 ⟨hop, fun hI => nomatch hformat.symm.trans hI⟩

/-- A word with the opcode and the operand byte of a command is that command. -/
theorem decode_of_fields {w : Half} {i : Instr} (hop : opField w = i.opcode) (himm : imm8Field w = i.operandByte) :
    decode w = .ok i :=
  (decode_eq_ok_iff w i).2 ⟨hop, fun _ => himm⟩

/-- A word whose opcode no command has is refused by that opcode (30_encoding.md R68). -/
theorem decode_of_reserved {w : Half} {op : Byte} (hop : opField w = op) (hreserved : op ∉ assignedOpcodes) :
    decode w = .error (.reservedOpcode op) := by
  subst hop
  exact (decode_eq_error_iff w).2 hreserved

/-- Settles O3: a format `N` word by its opcode alone (the operand byte of the `GETM` word is 0xFF), a format `I` word
by both fields, and 0x14 is no assigned opcode. -/
theorem writtenWordsDecode : Obligations.WrittenWordsDecode := by
  refine ⟨?crcclr, ?crcupd, ?tblrd, ?addb, ?getm, ?stat, ?rdb, ?chk, ?reserved⟩
  case crcclr | getm | stat | chk => exact decode_of_format_N rfl rfl
  case crcupd | tblrd | addb | rdb => exact decode_of_fields rfl rfl
  case reserved => exact decode_of_reserved rfl (by decide)

end Sys2Proof
end
